-- ==== Sys2Proof/Word.lean ====
section
/-! DEFINITION. The bit-vector types the spec names, and nothing else. -/

namespace Sys2Proof

/-- A byte of FRAME has 8 bits (20_memory.md R34). -/
abbrev Byte := BitVec 8

/-- The 7-bit `type_code` of a TLV header, header bits 15 to 9 (30_encoding.md R53). -/
abbrev TypeCode := BitVec 7

/-- The 9-bit `length` of a TLV header, header bits 8 to 0 (30_encoding.md R53). -/
abbrev TlvLen := BitVec 9

end Sys2Proof
end

