-- ==== Sys2Proof/Config.lean ====
section
/-! DEFINITION. The build-time parameters of 00_scope.md R5. Every definition whose rule names one takes a
`Params`, so both values of an option are modelled. `Config.params` is this hardware. The two OPEN parameters are opaque:
nothing can evaluate them, so a theorem that mentions one holds for every value of it. -/

namespace Sys2Proof

/-- `CHASSIS_ID_FIELD` (00_scope.md R5, 92_eei_decisions.md D10). -/
inductive ChassisIdField where
  | allRemaining
  | firstSix
deriving DecidableEq, Repr

/-- `MGMT_TRAILING` (00_scope.md R5, 92_eei_decisions.md D11). -/
inductive MgmtTrailing where
  | reject
  | ignore
deriving DecidableEq, Repr

/-- The build-time parameters that a block output depends on (00_scope.md R5). -/
structure Params where
  /-- `MAX_FRAME_LEN`, the largest `frame_len` the block accepts. -/
  maxFrameLen : Nat
  /-- `STOP_AT_END` (41_header_and_sequencer.md R76). -/
  stopAtEnd : Bool
  chassisIdField : ChassisIdField
  mgmtTrailing : MgmtTrailing
deriving DecidableEq, Repr

/-- `MAX_FRAME_LEN` is OPEN (92_eei_decisions.md D3, 93_implementation_defined.md I1; log entry 1). -/
opaque Config.maxFrameLen : Nat

/-- `IPV6_RENDER`, the host's text of an IPv6 address, is OPEN (42_field_primitives.md R89, D13, I5; log entry 1).
No block output depends on it. -/
opaque Config.ipv6Render : List Byte → List Char

/-- This hardware's parameters (00_scope.md R5). -/
def Config.params : Params where
  maxFrameLen := Config.maxFrameLen
  stopAtEnd := false
  chassisIdField := .allRemaining
  mgmtTrailing := .reject

/-- `CURSOR_W`: the smallest `w` with `2^w > MAX_FRAME_LEN` (00_scope.md R5). -/
def Params.cursorW (p : Params) : Nat :=
  if p.maxFrameLen = 0 then 0 else p.maxFrameLen.log2 + 1

end Sys2Proof
end

