-- ==== Sys2Proof/Syntax.lean ====
section
/-! DEFINITION. The instructions: one constructor per row of spec/opcode_table.json, in the table's order. -/

namespace Sys2Proof

/-- The instruction word of a TLV is its 16-bit header: the type code is the opcode, the length the operand
(00_scope.md R10). The `length` value bytes after it are read from FRAME by the meaning (41_header_and_sequencer.md R70). -/
inductive Instr where
  /-- ENVELOPE, the 14-byte Ethernet envelope (40_frame_validator.md R64). It has no operand: the source MAC is not
  compared and never read (30_encoding.md R50). -/
  | envelope
  /-- END, EndOfLLDPDU, type 0 (43_tlv_decoders_basic.md R91). -/
  | endLldpdu (length : TlvLen)
  /-- CHASSIS_ID, type 1 (R92). -/
  | chassisId (length : TlvLen)
  /-- PORT_ID, type 2 (R93). -/
  | portId (length : TlvLen)
  /-- TTL, type 3 (R94). -/
  | ttl (length : TlvLen)
  /-- PORT_DESC, type 4 (R95). -/
  | portDesc (length : TlvLen)
  /-- SYS_NAME, type 5 (R96). -/
  | sysName (length : TlvLen)
  /-- SYS_DESC, type 6 (R97). -/
  | sysDesc (length : TlvLen)
  /-- SYS_CAP, type 7 (R98). -/
  | sysCap (length : TlvLen)
  /-- MGMT_ADDR, type 8 (44_tlv_decoders_structured.md R101). -/
  | mgmtAddr (length : TlvLen)
  /-- ORG_SPECIFIC, type 127 (R108). -/
  | orgSpecific (length : TlvLen)
  /-- UNIMPLEMENTED, the fallback: any type code of 9 to 126 (R109). -/
  | unimplemented (typeCode : TypeCode) (length : TlvLen)
deriving DecidableEq, Repr

/-- The two instruction formats of the opcode table. The phase selects one: VALIDATE reads an envelope, WALK a header. -/
inductive Format where
  | eth14
  | tlvhdr16
deriving DecidableEq, Repr

/-- The format of an instruction's row in spec/opcode_table.json. -/
def Instr.format : Instr → Format
  | .envelope => .eth14
  | .endLldpdu _ | .chassisId _ | .portId _ | .ttl _ | .portDesc _ | .sysName _ | .sysDesc _ | .sysCap _
  | .mgmtAddr _ | .orgSpecific _ | .unimplemented _ _ => .tlvhdr16

/-- The header fields `(type_code, length)` of a TLV instruction, none for the envelope (30_encoding.md R53, R56). -/
def Instr.header? : Instr → Option (TypeCode × TlvLen)
  | .envelope => none
  | .endLldpdu l => some (0, l)
  | .chassisId l => some (1, l)
  | .portId l => some (2, l)
  | .ttl l => some (3, l)
  | .portDesc l => some (4, l)
  | .sysName l => some (5, l)
  | .sysDesc l => some (6, l)
  | .sysCap l => some (7, l)
  | .mgmtAddr l => some (8, l)
  | .orgSpecific l => some (127, l)
  | .unimplemented t l => some (t, l)

end Sys2Proof
end

