-- ==== Sys2Proof/WellFormed.lean ====
section
/-! DEFINITION. Which terms of `Instr` stand for an instruction word of the spec. -/

namespace Sys2Proof

/-- The fallback's type codes are exactly 9 to 126: every other code is in the registry
(30_encoding.md R56, R57; 90_conflicts.md C5). -/
def TypeCode.isFallback (t : TypeCode) : Bool :=
  decide (9 ≤ t.toNat) && decide (t.toNat ≤ 126)

/-- The one check: a fallback instruction carries a fallback type code. Lengths need none, since every 9-bit length
stands in some header and a length out of bounds is an ending of the frame, not an illegal instruction (R53, R57). -/
def Instr.wellFormed : Instr → Bool
  | .unimplemented t _ => t.isFallback
  | .envelope => true
  | .endLldpdu _ | .chassisId _ | .portId _ | .ttl _ | .portDesc _ | .sysName _ | .sysDesc _ | .sysCap _
  | .mgmtAddr _ | .orgSpecific _ => true

end Sys2Proof
end

