-- ==== Sys2Proof/Decode.lean ====
section
/-! DEFINITION. Decoding, total on any bytes and rejecting by name, and the encoder after it
(30_encoding.md R48 to R57, 41_header_and_sequencer.md R68, R69, 40_frame_validator.md R64). -/

namespace Sys2Proof

/-- `LLDP_ETHERTYPE` (00_scope.md R6). -/
def lldpEtherType : BitVec 16 := 0x88CC

/-- `LLDP_DST_MAC`, byte 0 first on the wire (00_scope.md R6). -/
def lldpDstMac : List Byte := [0x01, 0x80, 0xC2, 0x00, 0x00, 0x0E]

/-- `ENVELOPE_LEN` (00_scope.md R6). -/
def envelopeLen : Nat := 14

/-- Two bytes joined big-endian, the first on the wire more significant (20_memory.md R37, R38). -/
def joinBe16 (hi lo : Byte) : BitVec 16 := hi ++ lo

/-- Four bytes joined big-endian (20_memory.md R37, 42_field_primitives.md R82). -/
def joinBe32 (b3 b2 b1 b0 : Byte) : BitVec 32 := b3 ++ b2 ++ b1 ++ b0

/-- The `n` bytes of a number, most significant first (20_memory.md R37). -/
def bytesOfNat : Nat → Nat → List Byte
  | 0, _ => []
  | n + 1, w => BitVec.ofNat 8 (w / 256 ^ n) :: bytesOfNat n w

/-- `DecodeHeader(h)`: `type_code = h >> 9`, `length = h & 0x1FF` (41_header_and_sequencer.md R68). -/
def decodeHeader (h : BitVec 16) : TypeCode × TlvLen :=
  ((h >>> 9).setWidth 7, (h &&& 0x1FF).setWidth 9)

/-- `EncodeHeader(t, l) = (t << 9) | l` (41_header_and_sequencer.md R69). -/
def encodeHeader (t : TypeCode) (l : TlvLen) : BitVec 16 :=
  (t.setWidth 16 <<< 9) ||| l.setWidth 16

/-- The two bytes of a header on the wire, `h[15:8]` then `h[7:0]` (R69). -/
def headerBytes (t : TypeCode) (l : TlvLen) : List Byte :=
  bytesOfNat 2 (encodeHeader t l).toNat

/-- The opcode map: a registry code selects its instruction, every other code the fallback (30_encoding.md R56). -/
def instrOfHeader (t : TypeCode) (l : TlvLen) : Instr :=
  match t.toNat with
  | 0 => .endLldpdu l
  | 1 => .chassisId l
  | 2 => .portId l
  | 3 => .ttl l
  | 4 => .portDesc l
  | 5 => .sysName l
  | 6 => .sysDesc l
  | 7 => .sysCap l
  | 8 => .mgmtAddr l
  | 127 => .orgSpecific l
  | _ => .unimplemented t l

/-- The instruction a 16-bit header stands for. No header is illegal (30_encoding.md R57). -/
def decodeHeaderWord (h : BitVec 16) : Instr :=
  instrOfHeader (decodeHeader h).1 (decodeHeader h).2

/-- Why bytes are no instruction of a format. -/
inductive DecodeReject where
  /-- Fewer bytes than the format has: 14 for an envelope, 2 for a header. -/
  | tooShort
  /-- Envelope bytes 12 and 13 are not `88 CC` (30_encoding.md R51). -/
  | etherTypeMismatch
  /-- Envelope bytes 0 to 5 are not the LLDP address (30_encoding.md R49). -/
  | dstMacMismatch
deriving DecidableEq, Repr

/-- What decoding bytes gives: an instruction with the bytes after its word, or a named rejection. -/
inductive Decoded where
  | instr (i : Instr) (rest : List Byte)
  | rejected (why : DecodeReject)
deriving DecidableEq, Repr

/-- Decode an envelope. Bytes 6 to 11 are not compared, and the EtherType is compared first
(40_frame_validator.md R64, R66). -/
def decodeEnvelope (bs : List Byte) : Decoded :=
  if bs.length < envelopeLen then .rejected .tooShort
  else if (bs.drop 12).take 2 ≠ bytesOfNat 2 lldpEtherType.toNat then .rejected .etherTypeMismatch
  else if bs.take 6 ≠ lldpDstMac then .rejected .dstMacMismatch
  else .instr .envelope (bs.drop envelopeLen)

/-- Decode a TLV header: only too few bytes reject (30_encoding.md R57). -/
def decodeTlvHeader : List Byte → Decoded
  | b0 :: b1 :: rest => .instr (decodeHeaderWord (joinBe16 b0 b1)) rest
  | [_] => .rejected .tooShort
  | [] => .rejected .tooShort

/-- The decoder, total on any bytes. -/
def decode : Format → List Byte → Decoded
  | .eth14, bs => decodeEnvelope bs
  | .tlvhdr16, bs => decodeTlvHeader bs

/-- The bytes of an accepted envelope with the source MAC `src` (30_encoding.md R48). -/
def envelopeBytes (src : BitVec 48) : List Byte :=
  lldpDstMac ++ bytesOfNat 6 src.toNat ++ bytesOfNat 2 lldpEtherType.toNat

/-- The encoder: the word of an instruction as bytes in wire order. The envelope's source MAC bytes are don't-care and
written as 0 (opcode_table.json row ENVELOPE). -/
def encode : Instr → List Byte
  | .envelope => envelopeBytes 0
  | .endLldpdu l => headerBytes 0 l
  | .chassisId l => headerBytes 1 l
  | .portId l => headerBytes 2 l
  | .ttl l => headerBytes 3 l
  | .portDesc l => headerBytes 4 l
  | .sysName l => headerBytes 5 l
  | .sysDesc l => headerBytes 6 l
  | .sysCap l => headerBytes 7 l
  | .mgmtAddr l => headerBytes 8 l
  | .orgSpecific l => headerBytes 127 l
  | .unimplemented t l => headerBytes t l

/-- The decoder on a word numbered as spec/opcode_table.json numbers it: an ENVELOPE row is ONE 112-bit big-endian word
(`dst_mac` is bits 111 to 64), a TLV row one 16-bit big-endian word. -/
def decodeTableWord (nbits w : Nat) : Option Instr :=
  match nbits with
  | 16 => instrOf (decode .tlvhdr16 (bytesOfNat 2 w))
  | 112 => instrOf (decode .eth14 (bytesOfNat 14 w))
  | _ => none
where
  /-- The instruction of a decoding, none where it rejects. -/
  instrOf : Decoded → Option Instr
    | .instr i _ => some i
    | .rejected _ => none

end Sys2Proof
end

