-- ==== Sys2Proof/Machine/State.lean ====
section
/-! DEFINITION. The state of the block (10_state.md), the host's operations as data, and the reasons a step can stop.
State is plain data and holds every register of R13, FRAME, and the model's own list of turns. -/

namespace Sys2Proof.Machine

/-- `phase` (10_state.md R14). -/
inductive Phase where
  | idle
  | validate
  | walk
  | done
deriving DecidableEq, Repr

/-- `outcome` (10_state.md R18). Code 7 is reserved and never written, so it has no constructor. -/
inductive FrameOutcome where
  | none
  | ok
  | notLldp
  | truncatedFrame
  | invalidTlvLength
  | invalidFieldValue
  | decodeError
deriving DecidableEq, Repr

/-- A non-error ending with its detail (60_exceptions.md R114, R115). -/
inductive Ending where
  /-- `OK`: the end of the payload (or, with `STOP_AT_END`, an END record). -/
  | ok
  /-- `NOT_LLDP(ETHERTYPE)`. -/
  | notLldpEtherType
  /-- `NOT_LLDP(DST_MAC)`. -/
  | notLldpDstMac
deriving DecidableEq, Repr

/-- An error ending with its detail: the error rows of the table in 60_exceptions.md R114. -/
inductive Cause where
  /-- `TRUNCATED_FRAME(ENVELOPE)`, raised by VALIDATE. -/
  | envelope
  /-- `TRUNCATED_FRAME(HEADER)`, raised by WALK. -/
  | header
  /-- `TRUNCATED_FRAME(VALUE)`, raised by WALK. -/
  | value
  /-- `INVALID_TLV_LENGTH(BELOW_MIN)`. -/
  | belowMin
  /-- `INVALID_TLV_LENGTH(ABOVE_MAX)`. -/
  | aboveMax
  /-- `INVALID_FIELD_VALUE(MGMT_ADDR_LEN_ZERO)`. -/
  | mgmtAddrLenZero
  /-- `INVALID_FIELD_VALUE(MGMT_ADDR_OVERRUN)`. -/
  | mgmtAddrOverrun
  /-- `INVALID_FIELD_VALUE(MGMT_IF_SUBTYPE_RANGE)`. -/
  | mgmtIfSubtypeRange
  /-- `INVALID_FIELD_VALUE(MGMT_IF_RESERVED_NONZERO)`. -/
  | mgmtIfReservedNonzero
  /-- `INVALID_FIELD_VALUE(MGMT_OID_OVERRUN)`. -/
  | mgmtOidOverrun
  /-- `INVALID_FIELD_VALUE(MGMT_TRAILING)`. -/
  | mgmtTrailing
  /-- `DECODE_ERROR(UTF8_INVALID)`. -/
  | utf8Invalid
deriving DecidableEq, Repr

/-- The `info` of a raise: a field not given is 0 (60_exceptions.md R116). -/
structure ErrInfo where
  tlvOffset : Nat := 0
  type : TypeCode := 0
  len : TlvLen := 0
  min : TlvLen := 0
  max : TlvLen := 0
  avail : Nat := 0
  pos : Nat := 0
deriving DecidableEq, Repr

/-- A render tag (30_encoding.md R60). -/
inductive RenderTag where
  | opaqueBytes
  | hexColon
  | hexPlain
  | dottedQuad
  | colonHexV6
  | utf8Text
deriving DecidableEq, Repr

/-- `subtype_class`: a subtype of 0 to 7, or RESERVED (30_encoding.md R62, 42_field_primitives.md R85). -/
inductive SubtypeClass where
  | named (n : Fin 8)
  | reserved
deriving DecidableEq, Repr

/-- The kind and kind fields of a decoded record (30_encoding.md R61). A byte string is a list of bytes in wire order. -/
inductive RecordBody where
  | endLldpdu
  | chassisId (subtype : Byte) (subtypeClass : SubtypeClass) (id : List Byte) (idRender : RenderTag)
  | portId (subtype : Byte) (subtypeClass : SubtypeClass) (idText : List Byte)
  | ttl (ttlSeconds : BitVec 16)
  | portDesc (text : List Byte)
  | sysName (text : List Byte)
  | sysDesc (text : List Byte)
  | sysCap (system enabled : BitVec 16) (sysCaps enCaps : Vector Bool 8)
  | mgmtAddr (addrStrLen addrSubtype : Byte) (addr : List Byte) (addrRender : RenderTag)
      (ifSubtype : Byte) (ifNumber : BitVec 32) (oidLen : Byte) (oidPresent : Bool) (oid : List Byte)
  | orgSpecific (oui : List Byte) (orgSubtype : Byte) (info : List Byte)
  | unimplemented (raw : List Byte)
deriving DecidableEq, Repr

/-- A decoded record: the common fields and the body. `kind` is computed from the body (30_encoding.md R61, R62). -/
structure Record where
  typeCode : TypeCode
  length : TlvLen
  tlvOffset : Nat
  body : RecordBody
deriving DecidableEq, Repr

/-- The names of the host-readable registers of 10_state.md R13. -/
inductive Reg where
  | phase | frameLen | cursor | recCount | outcome | errDetail | errTlvOffset | errType | errLen | errMin | errMax
  | errAvail | errPos | out
deriving DecidableEq, Repr

/-- A host operation (10_state.md R29, R30; 70_reset_and_hazards.md R134, R138 to R140). -/
inductive HostOp where
  /-- RESET (R134). -/
  | reset
  /-- START(n) (R30). -/
  | start (n : Nat)
  /-- Write consecutive bytes of FRAME from an offset (R138 step 2). -/
  | writeFrame (addr : Nat) (bytes : List Byte)
  /-- Read a register (R25). -/
  | read (r : Reg)
  /-- Take `out` as the decoded LldpFrame (R31). -/
  | takeFrame
deriving DecidableEq, Repr

/-- Whose turn it is: the spec leaves the order of the two agents' steps open (log entry 5). -/
inductive Turn where
  | block
  | host (op : HostOp)
deriving DecidableEq, Repr

/-- FRAME: the bytes the host has written, strictly rising in their offsets. An unlisted offset holds no value
(70_reset_and_hazards.md R136; log entry 3). -/
abbrev Memory := List Host.Cell

/-- The state. The registers are those of 10_state.md R13 and no others (R24). A register of width `CURSOR_W` is a
natural number, since the spec compares and adds offsets as natural numbers and none of them wraps (00_scope.md R8,
10_state.md R21, R22; log entry 2). -/
structure State where
  phase : Phase
  frameLen : Nat
  cursor : Nat
  recCount : Nat
  outcome : FrameOutcome
  errDetail : BitVec 4
  errTlvOffset : Nat
  errType : TypeCode
  errLen : TlvLen
  errMin : TlvLen
  errMax : TlvLen
  errAvail : Nat
  errPos : Nat
  out : List Record
  /-- FRAME, the host's frame buffer (20_memory.md R34). -/
  frame : Memory
  /-- The model's own field: the turns to come; when empty, the block moves (log entry 5). -/
  turns : List Turn
deriving DecidableEq, Repr

/-- Right after RESET (70_reset_and_hazards.md R135): every register at its reset value. FRAME has no reset value, so
nothing is listed (R136); no turn is scheduled (log entry 5). -/
def State.reset : State where
  phase := .idle
  frameLen := 0
  cursor := 0
  recCount := 0
  outcome := .none
  errDetail := 0
  errTlvOffset := 0
  errType := 0
  errLen := 0
  errMin := 0
  errMax := 0
  errAvail := 0
  errPos := 0
  out := []
  frame := []
  turns := []

/-- Where the machine stops with a fault. The spec's own error endings are next states, not faults (60_exceptions.md R116). -/
inductive Fault where
  /-- Raised by a host write to an offset that does not exist: FRAME has `CURSOR_W` address bits (20_memory.md R34).
  Safe: the model stops where real hardware would do something the spec does not say (log entry 4). -/
  | addressOutsideFrame
deriving DecidableEq, Repr

/-- Where the model gives no meaning (00_scope.md R11). Each is safe: the model stops, toward unprovable. -/
inductive Refusal where
  /-- An arm of `exec` that has no meaning yet. No arm is left so. -/
  | notModelled (mnemonic : String)
  /-- Raised by START in VALIDATE or WALK (10_state.md R30, 93_implementation_defined.md I6). -/
  | startDuringRun
  /-- Raised by START(n) with `n > MAX_FRAME_LEN` (R30, I7). -/
  | frameTooLong
  /-- Raised by START(n) where a byte of `FRAME[0..n-1]` was never written: the host broke its duty to make FRAME hold the
  frame's bytes (70_reset_and_hazards.md R139; log entry 3). -/
  | frameNotWritten
  /-- Raised by a host write to FRAME in VALIDATE or WALK (70_reset_and_hazards.md R139, R141, I8). -/
  | frameWriteDuringRun
  /-- Raised when the host takes `out` as a frame though the run did not end OK (10_state.md R31, R139, I11). -/
  | notAnLldpFrame
  /-- Raised by a read of FRAME at or past `frame_len`; unreachable under the rules (20_memory.md R40, I9). -/
  | readPastFrame
  /-- Raised by a read of a byte below `frame_len` that the host never wrote. START is refused on such a frame, so no run
  from reset reaches it (70_reset_and_hazards.md R139, R136; log entries 3 and 9). -/
  | unwrittenFrameByte
  /-- Raised by a decoder read outside the value it was handed; unreachable under the rules (42_field_primitives.md R82). -/
  | readPastValue
  /-- Raised by a meaning that is run in a phase other than the one that enables it; `step` never does so
  (40_frame_validator.md R64, 41_header_and_sequencer.md R70: `require reg.phase = …`). -/
  | stepNotEnabled
deriving DecidableEq, Repr

/-- What ends a step's computation early: an error ending of the frame, or a refusal. -/
inductive Halt where
  | raised (c : Cause) (info : ErrInfo)
  | refused (r : Refusal)
deriving DecidableEq, Repr

/-- The outcome of one step of this machine. -/
abbrev StepResult := Host.Outcome State Fault Refusal

end Sys2Proof.Machine
end

