-- ==== Sys2Proof/Machine/Flags.lean ====
section
/-! DEFINITION. The status codes. The block has no condition flags (10_state.md R24); its only status is `phase`,
`outcome` and `err_detail`, and the code spaces of records. -/

namespace Sys2Proof.Machine

/-- The 2-bit code of `phase` (10_state.md R14). -/
def Phase.code : Phase → BitVec 2
  | .idle => 0
  | .validate => 1
  | .walk => 2
  | .done => 3

/-- The phases in which a run is in progress: the block has a step in these and in no others (10_state.md R14). -/
def Phase.running : Phase → Bool
  | .validate | .walk => true
  | .idle | .done => false

/-- The 3-bit code of `outcome` (10_state.md R18). -/
def FrameOutcome.code : FrameOutcome → BitVec 3
  | .none => 0
  | .ok => 1
  | .notLldp => 2
  | .truncatedFrame => 3
  | .invalidTlvLength => 4
  | .invalidFieldValue => 5
  | .decodeError => 6

/-- Whether an outcome is an error (10_state.md R18, 60_exceptions.md R113). -/
def FrameOutcome.isError : FrameOutcome → Bool
  | .none | .ok | .notLldp => false
  | .truncatedFrame | .invalidTlvLength | .invalidFieldValue | .decodeError => true

/-- The outcome of a non-error ending (60_exceptions.md R114). -/
def Ending.outcome : Ending → FrameOutcome
  | .ok => .ok
  | .notLldpEtherType | .notLldpDstMac => .notLldp

/-- The detail code of a non-error ending; 0 for `OK` (60_exceptions.md R114, R115). -/
def Ending.detail : Ending → BitVec 4
  | .ok => 0
  | .notLldpEtherType => 1
  | .notLldpDstMac => 2

/-- The outcome of an error (60_exceptions.md R114). -/
def Cause.outcome : Cause → FrameOutcome
  | .envelope | .header | .value => .truncatedFrame
  | .belowMin | .aboveMax => .invalidTlvLength
  | .mgmtAddrLenZero | .mgmtAddrOverrun | .mgmtIfSubtypeRange | .mgmtIfReservedNonzero | .mgmtOidOverrun
  | .mgmtTrailing => .invalidFieldValue
  | .utf8Invalid => .decodeError

/-- The detail code of an error (60_exceptions.md R114). -/
def Cause.detail : Cause → BitVec 4
  | .envelope => 1
  | .header => 2
  | .value => 3
  | .belowMin => 1
  | .aboveMax => 2
  | .mgmtAddrLenZero => 1
  | .mgmtAddrOverrun => 2
  | .mgmtIfSubtypeRange => 3
  | .mgmtIfReservedNonzero => 4
  | .mgmtOidOverrun => 5
  | .mgmtTrailing => 6
  | .utf8Invalid => 1

/-- The code of a render tag (30_encoding.md R60). -/
def RenderTag.code : RenderTag → Nat
  | .opaqueBytes => 0
  | .hexColon => 1
  | .hexPlain => 2
  | .dottedQuad => 3
  | .colonHexV6 => 4
  | .utf8Text => 5

/-- The code of a subtype class: the subtype itself, or RESERVED = 8 (30_encoding.md R62). -/
def SubtypeClass.code : SubtypeClass → Nat
  | .named n => n.val
  | .reserved => 8

/-- The 8-bit `kind` code of a record body (30_encoding.md R62). -/
def RecordBody.kind : RecordBody → Byte
  | .endLldpdu => 0
  | .chassisId .. => 1
  | .portId .. => 2
  | .ttl .. => 3
  | .portDesc .. => 4
  | .sysName .. => 5
  | .sysDesc .. => 6
  | .sysCap .. => 7
  | .mgmtAddr .. => 8
  | .orgSpecific .. => 127
  | .unimplemented .. => 128

/-- The `kind` of a record (30_encoding.md R61). -/
def Record.kind (r : Record) : Byte := r.body.kind

/-- The byte strings of a record with their render tags, in the order of 30_encoding.md R61 (tags R60). -/
def RecordBody.byteStrings : RecordBody → List (List Byte × RenderTag)
  | .endLldpdu => []
  | .chassisId _ _ id render => [(id, render)]
  | .portId _ _ idText => [(idText, .utf8Text)]
  | .ttl _ => []
  | .portDesc text => [(text, .utf8Text)]
  | .sysName text => [(text, .utf8Text)]
  | .sysDesc text => [(text, .utf8Text)]
  | .sysCap .. => []
  | .mgmtAddr _ _ addr render _ _ _ _ oid => [(addr, render), (oid, .opaqueBytes)]
  | .orgSpecific oui _ info => [(oui, .hexColon), (info, .opaqueBytes)]
  | .unimplemented raw => [(raw, .opaqueBytes)]

/-- The capability of a bit position (43_tlv_decoders_basic.md R99): a label for the host, no block output. -/
def capabilityName : Fin 8 → String
  | 0 => "Other"
  | 1 => "Repeater"
  | 2 => "Bridge"
  | 3 => "WLAN AP"
  | 4 => "Router"
  | 5 => "Telephone"
  | 6 => "DOCSIS cable device"
  | 7 => "Station only"

/-- The name of a ChassisID subtype class (42_field_primitives.md R85): an informative label, no block output. Only class 4
and RESERVED are named by the spec's source (log entry 8). -/
def SubtypeClass.chassisIdName : SubtypeClass → String
  | .named 0 => "Reserved"
  | .named 1 => "Chassis component"
  | .named 2 => "Interface alias"
  | .named 3 => "Port component"
  | .named 4 => "MAC address"
  | .named 5 => "Network address"
  | .named 6 => "Interface name"
  | .named 7 => "Locally assigned"
  | .reserved => "Reserved"

/-- The name of a PortID subtype class (42_field_primitives.md R85): an informative label, no block output. Only RESERVED is
named by the spec's source (log entry 8). -/
def SubtypeClass.portIdName : SubtypeClass → String
  | .named 0 => "Reserved"
  | .named 1 => "Interface alias"
  | .named 2 => "Port component"
  | .named 3 => "MAC address"
  | .named 4 => "Network address"
  | .named 5 => "Interface name"
  | .named 6 => "Agent circuit ID"
  | .named 7 => "Locally assigned"
  | .reserved => "Reserved"

/-- The name of an interface subtype of a management address (44_tlv_decoders_structured.md R104): an informative label, no
block output. Only 0 is named by the spec's source (log entry 8). -/
def ifSubtypeName : Fin 4 → String
  | 0 => "Reserved"
  | 1 => "Unknown"
  | 2 => "ifIndex"
  | 3 => "system port number"

end Sys2Proof.Machine
end

