-- ==== Sys2Proof/Machine/Ops.lean ====
section
/-! DEFINITION. The named operations over FRAME and the registers: reading and writing FRAME (20_memory.md), the two
endings of a frame (60_exceptions.md R115, R116), Emit (10_state.md R26) and the cursor's moves. -/

namespace Sys2Proof.Machine

/-- The byte at an offset, none where the host has written nothing (20_memory.md R34, 70_reset_and_hazards.md R136). -/
def Memory.read : Memory → Nat → Option Byte
  | [], _ => none
  | (k, b) :: m, a => if k = a then some b else Memory.read m a

/-- Write one byte, keeping the offsets strictly rising. -/
def Memory.write : Memory → Nat → Byte → Memory
  | [], a, b => [(a, b)]
  | (k, c) :: m, a, b =>
    if a < k then (a, b) :: (k, c) :: m
    else if a = k then (a, b) :: m
    else (k, c) :: Memory.write m a b

/-- Write consecutive bytes from an offset. -/
def Memory.writeBytes (m : Memory) (a : Nat) : List Byte → Memory
  | [] => m
  | b :: bs => Memory.write (Memory.writeBytes m (a + 1) bs) a b

/-- The `n` bytes from an offset in wire order, none where one was never written. -/
def Memory.readBytes (m : Memory) : Nat → Nat → Option (List Byte)
  | _, 0 => some []
  | a, n + 1 =>
    match Memory.read m a, Memory.readBytes m (a + 1) n with
    | some b, some bs => some (b :: bs)
    | some _, none => none
    | none, _ => none

/-- The host has written every byte of `FRAME[0..n-1]` (70_reset_and_hazards.md R139). -/
def Memory.written (m : Memory) (n : Nat) : Bool := (m.readBytes 0 n).isSome

/-- The canonical form of FRAME: offsets strictly rising. (An unlisted offset holds no value, so no entry can equal it.) -/
def Memory.wf : Memory → Bool
  | [] => true
  | [_] => true
  | (k, _) :: (k', b') :: m => decide (k < k') && Memory.wf ((k', b') :: m)

/-- `Bytes(addr, n)` (20_memory.md R39). A read that breaks its precondition `addr + n ≤ frame_len` is refused (R40), and
so is one of a byte the host never wrote (70_reset_and_hazards.md R139). -/
def State.bytes (s : State) (addr n : Nat) : Except Halt (List Byte) :=
  if s.frameLen < addr + n then .error (.refused .readPastFrame)
  else match s.frame.readBytes addr n with
    | some bs => .ok bs
    | none => .error (.refused .unwrittenFrameByte)

/-- A byte list joined big-endian into an unsigned number (20_memory.md R37, R38). -/
def beNat (bs : List Byte) : Nat :=
  bs.foldl (fun acc b => acc * 256 + b.toNat) 0

/-- `MemRead(addr, n)`, used with `1 ≤ n ≤ 4` (20_memory.md R38). -/
def State.memRead (s : State) (addr n : Nat) : Except Halt (BitVec (8 * n)) := do
  let bs ← s.bytes addr n
  .ok (BitVec.ofNat (8 * n) (beNat bs))

/-- `finish O(d)` (60_exceptions.md R115): the outcome, the detail and the phase, and nothing else. -/
def State.finish (s : State) (e : Ending) : State :=
  { s with outcome := e.outcome, errDetail := e.detail, phase := .done }

/-- `raise O(d, info)`, the block's trap entry (60_exceptions.md R116): there is no vector and no saved return state, and
`cursor`, `rec_count` and `out` keep their values (R117). -/
def State.raise (s : State) (c : Cause) (info : ErrInfo) : State :=
  { s with
    outcome := c.outcome
    errDetail := c.detail
    errTlvOffset := info.tlvOffset
    errType := info.type
    errLen := info.len
    errMin := info.min
    errMax := info.max
    errAvail := info.avail
    errPos := info.pos
    phase := .done }

/-- How an early end of a step's computation ends the step: an error ending is a next state, a refusal stops. -/
def State.halt (s : State) : Halt → StepResult
  | .raised c info => .next (s.raise c info)
  | .refused r => .refused r

/-- `Emit(rec)`: append the record and count it (10_state.md R26). -/
def State.emit (s : State) (r : Record) : State :=
  { s with out := s.out ++ [r], recCount := s.recCount + 1 }

/-- `reg.cursor <- target` (00_scope.md R9). -/
def State.setCursor (s : State) (target : Nat) : State :=
  { s with cursor := target }

/-- The payload is handed to the sequencer (40_frame_validator.md R67). -/
def State.enterWalk (s : State) : State :=
  { s with cursor := envelopeLen, phase := .walk }

end Sys2Proof.Machine
end

