-- ==== Sys2Proof/Machine/Operands.lean ====
section
/-! DEFINITION. The field primitives shared by the decoders (42_field_primitives.md): the length bounds, reading fields
from a value, UTF-8 text and subtype classes. -/

namespace Sys2Proof.Machine

/-- `(MIN_LENGTH, MAX_LENGTH)` of a type code (30_encoding.md R58; ChassisID's lower bound is 7, 90_conflicts.md C1). -/
def lengthBounds (t : TypeCode) : TlvLen × TlvLen :=
  match t.toNat with
  | 0 => (0, 0)
  | 1 => (7, 256)
  | 2 => (1, 255)
  | 3 => (2, 2)
  | 4 => (0, 255)
  | 5 => (0, 255)
  | 6 => (0, 255)
  | 7 => (4, 4)
  | 8 => (9, 167)
  | 127 => (4, 511)
  | _ => (0, 511)

/-- One check of a decoder: where it fails, the decoder halts (42_field_primitives.md R81). -/
def check (ok : Prop) [Decidable ok] (h : Halt) : Except Halt Unit :=
  if ok then .ok () else .error h

/-- The error information of a length-bound error (60_exceptions.md R122). -/
def lengthInfo (t : TypeCode) (l : TlvLen) (c : Nat) : ErrInfo :=
  { tlvOffset := c, type := t, len := l, min := (lengthBounds t).1, max := (lengthBounds t).2, pos := c + 2 }

/-- The error information of a field-value or encoding error: the offending field's offset (60_exceptions.md R122). -/
def fieldInfo (t : TypeCode) (l : TlvLen) (c pos : Nat) : ErrInfo :=
  { tlvOffset := c, type := t, len := l, pos := pos }

/-- `BoundsCheck(t, l, c)` (42_field_primitives.md R80). -/
def boundsCheck (t : TypeCode) (l : TlvLen) (c : Nat) : Except Halt Unit := do
  check ((lengthBounds t).1 ≤ l) (.raised .belowMin (lengthInfo t l c))
  check (l ≤ (lengthBounds t).2) (.raised .aboveMax (lengthInfo t l c))

/-- `v[i]` (42_field_primitives.md R82). A read outside the value is refused; the decoders' checks rule it out. -/
def byteAt (v : List Byte) (i : Nat) : Except Halt Byte :=
  match v[i]? with
  | some b => .ok b
  | none => .error (.refused .readPastValue)

/-- `BE16(v, i)` (42_field_primitives.md R82). -/
def be16At (v : List Byte) (i : Nat) : Except Halt (BitVec 16) := do
  let hi ← byteAt v i
  let lo ← byteAt v (i + 1)
  .ok (joinBe16 hi lo)

/-- `BE32(v, i)` (42_field_primitives.md R82). -/
def be32At (v : List Byte) (i : Nat) : Except Halt (BitVec 32) := do
  let b3 ← byteAt v i
  let b2 ← byteAt v (i + 1)
  let b1 ← byteAt v (i + 2)
  let b0 ← byteAt v (i + 3)
  .ok (joinBe32 b3 b2 b1 b0)

/-- `Sub(v, i, n)` (42_field_primitives.md R82), with its requirement `i + n ≤ l`. -/
def subBytes (v : List Byte) (i n : Nat) : Except Halt (List Byte) :=
  if v.length < i + n then .error (.refused .readPastValue) else .ok ((v.drop i).take n)

/-- A byte in an inclusive range. -/
def Byte.within (b : Byte) (lo hi : Nat) : Bool :=
  decide (lo ≤ b.toNat) && decide (b.toNat ≤ hi)

/-- The nine rows of the UTF-8 table, one list of byte ranges a row (42_field_primitives.md R83). -/
def utf8Rows : List (List (Nat × Nat)) :=
  [ [(0x00, 0x7F)],
    [(0xC2, 0xDF), (0x80, 0xBF)],
    [(0xE0, 0xE0), (0xA0, 0xBF), (0x80, 0xBF)],
    [(0xE1, 0xEC), (0x80, 0xBF), (0x80, 0xBF)],
    [(0xED, 0xED), (0x80, 0x9F), (0x80, 0xBF)],
    [(0xEE, 0xEF), (0x80, 0xBF), (0x80, 0xBF)],
    [(0xF0, 0xF0), (0x90, 0xBF), (0x80, 0xBF), (0x80, 0xBF)],
    [(0xF1, 0xF3), (0x80, 0xBF), (0x80, 0xBF), (0x80, 0xBF)],
    [(0xF4, 0xF4), (0x80, 0x8F), (0x80, 0xBF), (0x80, 0xBF)] ]

/-- A sequence is one row of the table, each byte in the range given (42_field_primitives.md R83). -/
def matchesRow : List Byte → List (Nat × Nat) → Bool
  | [], [] => true
  | b :: bs, (lo, hi) :: row => Byte.within b lo hi && matchesRow bs row
  | [], _ :: _ => false
  | _ :: _, [] => false

/-- A well-formed sequence of 42_field_primitives.md R83. -/
def wellFormedSequence (q : List Byte) : Bool :=
  utf8Rows.any (matchesRow q)

/-- The first two bytes of a well-formed three-byte sequence (rows E0 to EF of R83). -/
def utf8Lead3 (b1 b2 : Byte) : Bool :=
  (Byte.within b1 0xE0 0xE0 && Byte.within b2 0xA0 0xBF)
  || (Byte.within b1 0xE1 0xEC && Byte.within b2 0x80 0xBF)
  || (Byte.within b1 0xED 0xED && Byte.within b2 0x80 0x9F)
  || (Byte.within b1 0xEE 0xEF && Byte.within b2 0x80 0xBF)

/-- The first two bytes of a well-formed four-byte sequence (rows F0 to F4 of R83). -/
def utf8Lead4 (b1 b2 : Byte) : Bool :=
  (Byte.within b1 0xF0 0xF0 && Byte.within b2 0x90 0xBF)
  || (Byte.within b1 0xF1 0xF3 && Byte.within b2 0x80 0xBF)
  || (Byte.within b1 0xF4 0xF4 && Byte.within b2 0x80 0x8F)

/-- The code points of a byte list, none where it is not well-formed UTF-8 (42_field_primitives.md R83, R90): from the
first byte, the list splits into well-formed sequences. -/
def utf8Decode : List Byte → Option (List Nat)
  | [] => some []
  | b1 :: r1 =>
    if Byte.within b1 0x00 0x7F then (utf8Decode r1).map (b1.toNat :: ·)
    else match r1 with
      | [] => none
      | b2 :: r2 =>
        if Byte.within b1 0xC2 0xDF && Byte.within b2 0x80 0xBF then
          (utf8Decode r2).map (((b1.toNat - 0xC0) * 64 + (b2.toNat - 0x80)) :: ·)
        else match r2 with
          | [] => none
          | b3 :: r3 =>
            if utf8Lead3 b1 b2 && Byte.within b3 0x80 0xBF then
              (utf8Decode r3).map
                (((b1.toNat - 0xE0) * 4096 + (b2.toNat - 0x80) * 64 + (b3.toNat - 0x80)) :: ·)
            else match r3 with
              | [] => none
              | b4 :: r4 =>
                if utf8Lead4 b1 b2 && Byte.within b3 0x80 0xBF && Byte.within b4 0x80 0xBF then
                  (utf8Decode r4).map
                    (((b1.toNat - 0xF0) * 262144 + (b2.toNat - 0x80) * 4096 + (b3.toNat - 0x80) * 64
                      + (b4.toNat - 0x80)) :: ·)
                else none

/-- `Utf8Valid(s)` (42_field_primitives.md R83). -/
def utf8Valid (s : List Byte) : Bool := (utf8Decode s).isSome

/-- `CheckText(s, pos, t, l, c)` (42_field_primitives.md R84). -/
def checkText (s : List Byte) (pos : Nat) (t : TypeCode) (l : TlvLen) (c : Nat) : Except Halt Unit :=
  check (utf8Valid s) (.raised .utf8Invalid (fieldInfo t l c pos))

/-- `SubtypeClass(s)` (42_field_primitives.md R85). -/
def subtypeClass (s : Byte) : SubtypeClass :=
  if h : s.toNat < 8 then .named ⟨s.toNat, h⟩ else .reserved

/-- The low 8 bits of a capability bitmap as Booleans by index (43_tlv_decoders_basic.md R98, R100). -/
def capabilityBits (bitmap : BitVec 16) : Vector Bool 8 :=
  Vector.ofFn fun i => bitmap.getLsbD i.val

end Sys2Proof.Machine
end

