-- ==== Sys2Proof/Machine/Sequencer.lean ====
section
/-! DEFINITION. The WALK step for one TLV, shared by every TLV meaning (41_header_and_sequencer.md R70 to R76). -/

namespace Sys2Proof.Machine

/-- A per-type decoder: a pure function of the type code, the length, the header's offset and the value
(44_tlv_decoders_structured.md R111). -/
abbrev Decoder := TypeCode → TlvLen → Nat → List Byte → Except Halt RecordBody

/-- The endings WALK has before it reads a header (41_header_and_sequencer.md R71, R72; the first that applies, R120). -/
def walkEnding (s : State) : Option State :=
  let rem := s.frameLen - s.cursor
  if rem = 0 then some (s.finish .ok)
  else if rem = 1 then some (s.raise .header { tlvOffset := s.cursor, avail := 1, pos := s.cursor })
  else none

/-- After a decoder returned a record: Emit, the cursor's advance, and the END policy (R70, R75, R76). -/
def commitRecord (p : Params) (t : TypeCode) (l : TlvLen) (body : RecordBody) (s : State) : State :=
  let emitted := s.emit { typeCode := t, length := l, tlvOffset := s.cursor, body := body }
  let moved := emitted.setCursor (s.cursor + 2 + l.toNat)
  if p.stopAtEnd ∧ t = 0 then moved.finish .ok else moved

/-- The value truncation check, the value, the decoder and the record, for a header `(t, l)` at the cursor
(R70 from its third check on; R73). -/
def runHeader (p : Params) (decoder : Decoder) (t : TypeCode) (l : TlvLen) (s : State) : StepResult :=
  let rem := s.frameLen - s.cursor
  if l.toNat > rem - 2 then
    .next (s.raise .value { tlvOffset := s.cursor, type := t, len := l, avail := rem - 2, pos := s.cursor + 2 })
  else
    match s.bytes (s.cursor + 2) l.toNat with
    | .error h => s.halt h
    | .ok v =>
      match decoder t l s.cursor v with
      | .error h => s.halt h
      | .ok body => .next (commitRecord p t l body s)

/-- WALK for a TLV whose header is `(t, l)` (41_header_and_sequencer.md R70). It is enabled only in WALK, and reads only
with `cursor ≤ frame_len` (10_state.md R22, 20_memory.md R40). -/
def runTlv (p : Params) (decoder : Decoder) (t : TypeCode) (l : TlvLen) (s : State) : StepResult :=
  if s.phase ≠ .walk then .refused .stepNotEnabled
  else if s.frameLen < s.cursor then .refused .readPastFrame
  else match walkEnding s with
    | some s' => .next s'
    | none => runHeader p decoder t l s

end Sys2Proof.Machine
end

