-- ==== Sys2Proof/Machine/DecodersBasic.lean ====
section
/-! DEFINITION. The decoders for types 0 to 7 (43_tlv_decoders_basic.md) and the meanings of their rows. -/

namespace Sys2Proof.Machine

/-- DecodeEnd (43_tlv_decoders_basic.md R91). -/
def decodeEnd : Decoder := fun _t l c _v => do
  boundsCheck 0 l c
  .ok .endLldpdu

/-- DecodeChassisId (43_tlv_decoders_basic.md R92). -/
def decodeChassisId (p : Params) : Decoder := fun _t l c v => do
  boundsCheck 1 l c
  let s ← byteAt v 0
  let id ← match p.chassisIdField with
    | .allRemaining => subBytes v 1 (l.toNat - 1)
    | .firstSix => subBytes v 1 6
  .ok (.chassisId s (subtypeClass s) id (if s = 4 then .hexColon else .hexPlain))

/-- DecodePortId (43_tlv_decoders_basic.md R93). -/
def decodePortId : Decoder := fun t l c v => do
  boundsCheck 2 l c
  let s ← byteAt v 0
  let text ← subBytes v 1 (l.toNat - 1)
  checkText text (c + 3) t l c
  .ok (.portId s (subtypeClass s) text)

/-- DecodeTtl (43_tlv_decoders_basic.md R94). -/
def decodeTtl : Decoder := fun _t l c v => do
  boundsCheck 3 l c
  let seconds ← be16At v 0
  .ok (.ttl seconds)

/-- DecodePortDesc (43_tlv_decoders_basic.md R95). -/
def decodePortDesc : Decoder := fun t l c v => do
  boundsCheck 4 l c
  checkText v (c + 2) t l c
  .ok (.portDesc v)

/-- DecodeSysName (43_tlv_decoders_basic.md R96). -/
def decodeSysName : Decoder := fun t l c v => do
  boundsCheck 5 l c
  checkText v (c + 2) t l c
  .ok (.sysName v)

/-- DecodeSysDesc (43_tlv_decoders_basic.md R97). -/
def decodeSysDesc : Decoder := fun t l c v => do
  boundsCheck 6 l c
  checkText v (c + 2) t l c
  .ok (.sysDesc v)

/-- DecodeSysCap (43_tlv_decoders_basic.md R98, R99, R100). -/
def decodeSysCap : Decoder := fun _t l c v => do
  boundsCheck 7 l c
  let sys ← be16At v 0
  let en ← be16At v 2
  .ok (.sysCap sys en (capabilityBits sys) (capabilityBits en))

/-- END (type 0). -/
def execEndLldpdu (length : TlvLen) (s : State) : StepResult :=
  runTlv Config.params decodeEnd 0 length s

/-- CHASSIS_ID (type 1). -/
def execChassisId (length : TlvLen) (s : State) : StepResult :=
  runTlv Config.params (decodeChassisId Config.params) 1 length s

/-- PORT_ID (type 2). -/
def execPortId (length : TlvLen) (s : State) : StepResult :=
  runTlv Config.params decodePortId 2 length s

/-- TTL (type 3). -/
def execTtl (length : TlvLen) (s : State) : StepResult :=
  runTlv Config.params decodeTtl 3 length s

/-- PORT_DESC (type 4). -/
def execPortDesc (length : TlvLen) (s : State) : StepResult :=
  runTlv Config.params decodePortDesc 4 length s

/-- SYS_NAME (type 5). -/
def execSysName (length : TlvLen) (s : State) : StepResult :=
  runTlv Config.params decodeSysName 5 length s

/-- SYS_DESC (type 6). -/
def execSysDesc (length : TlvLen) (s : State) : StepResult :=
  runTlv Config.params decodeSysDesc 6 length s

/-- SYS_CAP (type 7). -/
def execSysCap (length : TlvLen) (s : State) : StepResult :=
  runTlv Config.params decodeSysCap 7 length s

end Sys2Proof.Machine
end

