-- ==== Sys2Proof/Machine/DecodersStructured.lean ====
section
/-! DEFINITION. The decoders for types 8 and 127 and the fallback (44_tlv_decoders_structured.md), and the meanings of
their rows. -/

namespace Sys2Proof.Machine

/-- The render tag of a management address (44_tlv_decoders_structured.md R103). -/
def addrRender (addrSubtype : Byte) : RenderTag :=
  if addrSubtype = 1 then .dottedQuad else if addrSubtype = 2 then .colonHexV6 else .opaqueBytes

/-- DecodeMgmtAddr (44_tlv_decoders_structured.md R101): the checks in the order of R121, with `p = N + 1` the value index
of the interface subtype. -/
def decodeMgmtAddr (params : Params) : Decoder := fun t l c v => do
  boundsCheck 8 l c
  let len := l.toNat
  let n ← byteAt v 0
  check (n ≠ 0) (.raised .mgmtAddrLenZero (fieldInfo t l c (c + 2)))
  check (n.toNat + 7 ≤ len) (.raised .mgmtAddrOverrun (fieldInfo t l c (c + 2)))
  let asub ← byteAt v 1
  let addr ← subBytes v 2 (n.toNat - 1)
  let p := n.toNat + 1
  let ifs ← byteAt v p
  let ifn ← be32At v (p + 1)
  let m ← byteAt v (p + 5)
  check (ifs.toNat ≤ 3) (.raised .mgmtIfSubtypeRange (fieldInfo t l c (c + 2 + p)))
  check (¬ (ifs = 0 ∧ ifn ≠ 0)) (.raised .mgmtIfReservedNonzero (fieldInfo t l c (c + 2 + p)))
  check (p + 6 + m.toNat ≤ len) (.raised .mgmtOidOverrun (fieldInfo t l c (c + 2 + p + 5)))
  check (¬ (p + 6 + m.toNat < len ∧ params.mgmtTrailing = .reject))
    (.raised .mgmtTrailing (fieldInfo t l c (c + 2 + p + 6 + m.toNat)))
  let oid ← subBytes v (p + 6) m.toNat
  .ok (.mgmtAddr n asub addr (addrRender asub) ifs ifn m (decide (m ≠ 0)) oid)

/-- DecodeOrgSpecific (44_tlv_decoders_structured.md R108). -/
def decodeOrgSpecific : Decoder := fun _t l c v => do
  boundsCheck 127 l c
  let oui ← subBytes v 0 3
  let sub ← byteAt v 3
  let info ← subBytes v 4 (l.toNat - 4)
  .ok (.orgSpecific oui sub info)

/-- DecodeFallback (44_tlv_decoders_structured.md R109): it never raises (R110). -/
def decodeFallback : Decoder := fun _t _l _c v => .ok (.unimplemented v)

/-- MGMT_ADDR (type 8). -/
def execMgmtAddr (length : TlvLen) (s : State) : StepResult :=
  runTlv Config.params (decodeMgmtAddr Config.params) 8 length s

/-- ORG_SPECIFIC (type 127). -/
def execOrgSpecific (length : TlvLen) (s : State) : StepResult :=
  runTlv Config.params decodeOrgSpecific 127 length s

/-- UNIMPLEMENTED (types 9 to 126). -/
def execUnimplemented (typeCode : TypeCode) (length : TlvLen) (s : State) : StepResult :=
  runTlv Config.params decodeFallback typeCode length s

end Sys2Proof.Machine
end

