-- ==== Sys2Proof/Machine/Validate.lean ====
section
/-! DEFINITION. The frame validator (40_frame_validator.md): the meaning of the ENVELOPE row. -/

namespace Sys2Proof.Machine

/-- ENVELOPE, the VALIDATE step (40_frame_validator.md R64). The length comes first (R65), then the EtherType, then the
destination MAC (R66, 60_exceptions.md R119); on success the payload is handed over (R67). -/
def execEnvelope (s : State) : StepResult :=
  if s.phase ≠ .validate then .refused .stepNotEnabled
  else if s.frameLen < envelopeLen then .next (s.raise .envelope { avail := s.frameLen })
  else match s.memRead 12 2 with
    | .error h => s.halt h
    | .ok et =>
      if et ≠ lldpEtherType then .next (s.finish .notLldpEtherType)
      else match s.bytes 0 6 with
        | .error h => s.halt h
        | .ok dst =>
          if dst ≠ lldpDstMac then .next (s.finish .notLldpDstMac)
          else .next s.enterWalk

end Sys2Proof.Machine
end

