-- ==== Sys2Proof/Machine/Dispatch.lean ====
section
/-! DEFINITION. One arm per constructor of Instr. -/

namespace Sys2Proof.Machine

def exec (i : Instr) (s : State) : Host.Outcome State Fault Refusal :=
  match i with
  | .envelope => Sys2Proof.Machine.execEnvelope s
  | .endLldpdu length => Sys2Proof.Machine.execEndLldpdu length s
  | .chassisId length => Sys2Proof.Machine.execChassisId length s
  | .portId length => Sys2Proof.Machine.execPortId length s
  | .ttl length => Sys2Proof.Machine.execTtl length s
  | .portDesc length => Sys2Proof.Machine.execPortDesc length s
  | .sysName length => Sys2Proof.Machine.execSysName length s
  | .sysDesc length => Sys2Proof.Machine.execSysDesc length s
  | .sysCap length => Sys2Proof.Machine.execSysCap length s
  | .mgmtAddr length => Sys2Proof.Machine.execMgmtAddr length s
  | .orgSpecific length => Sys2Proof.Machine.execOrgSpecific length s
  | .unimplemented typeCode length => Sys2Proof.Machine.execUnimplemented typeCode length s

end Sys2Proof.Machine
end

