-- ==== Sys2Proof/Machine/Fetch.lean ====
section
/-! DEFINITION. Fetching the next TLV's header at the cursor, and laying an instruction word where the next step fetches it. -/

namespace Sys2Proof.Machine

/-- What WALK finds at the cursor before it dispatches (41_header_and_sequencer.md R70 to R72). -/
inductive Fetched where
  /-- The frame ends before a header is read. -/
  | ended (s : State)
  /-- The instruction the header stands for. -/
  | instr (i : Instr)
  /-- The header could not be read. -/
  | stopped (h : Halt)
deriving DecidableEq, Repr

/-- Read the header at the cursor as `MemRead(c, 2)` and decode it, after the endings that come first (R70, R120). -/
def fetchTlv (s : State) : Fetched :=
  if s.frameLen < s.cursor then .stopped (.refused .readPastFrame)
  else match walkEnding s with
    | some s' => .ended s'
    | none =>
      match s.memRead s.cursor 2 with
      | .error h => .stopped h
      | .ok h => .instr (decodeHeaderWord h)

/-- A state whose next block step runs the envelope word `w`: a run in VALIDATE with the 14 bytes in FRAME. -/
def placeEnvelope (s : State) (w : Nat) : State :=
  { s with
    turns := []
    phase := .validate
    frameLen := max s.frameLen 14
    frame := s.frame.writeBytes 0 (bytesOfNat 14 w) }

/-- A state whose next block step runs the header `w`: a run in WALK, the header at the cursor (at offset 14 where the
cursor is not in a payload), and as many zero value bytes after it as the header announces. -/
def placeTlv (s : State) (w : Nat) : State :=
  let at_ := if s.phase = .walk then max s.cursor 14 else 14
  let len := (decodeHeader (BitVec.ofNat 16 w)).2.toNat
  { s with
    turns := []
    phase := .walk
    cursor := at_
    frameLen := max s.frameLen (at_ + 2 + len)
    frame := s.frame.writeBytes at_ (bytesOfNat 2 w ++ List.replicate len 0) }

end Sys2Proof.Machine
end

