-- ==== Sys2Proof/Machine/HostOps.lean ====
section
/-! DEFINITION. The host agent's operations (10_state.md R25, R29 to R31, 70_reset_and_hazards.md R134 to R140). -/

namespace Sys2Proof.Machine

/-- RESET (70_reset_and_hazards.md R134): every register to its reset value, FRAME untouched. -/
def hostReset (s : State) : State :=
  { State.reset with frame := s.frame, turns := s.turns }

/-- START's effect (10_state.md R30): every register but `frame_len` and `phase` to its reset value (R27). -/
def startRun (n : Nat) (s : State) : State :=
  { State.reset with frame := s.frame, turns := s.turns, frameLen := n, phase := .validate }

/-- START(n) (10_state.md R30): refused in a run and with `n > MAX_FRAME_LEN`, and where `FRAME[0..n-1]` does not hold a
frame's bytes, since the host has not written them all (70_reset_and_hazards.md R139; checked here by choice, log entry 3). -/
def hostStart (p : Params) (n : Nat) (s : State) : StepResult :=
  if s.phase.running then .refused .startDuringRun
  else if p.maxFrameLen < n then .refused .frameTooLong
  else if s.frame.written n = false then .refused .frameNotWritten
  else .next (startRun n s)

/-- A host write to FRAME (70_reset_and_hazards.md R138 to R141): refused in a run. Offsets have `CURSOR_W` bits
(20_memory.md R34), and a write past them faults with no byte written (log entry 4). -/
def hostWriteFrame (p : Params) (addr : Nat) (bytes : List Byte) (s : State) : StepResult :=
  if s.phase.running then .refused .frameWriteDuringRun
  else if 2 ^ p.cursorW < addr + bytes.length then .fault .addressOutsideFrame
  else .next { s with frame := s.frame.writeBytes addr bytes }

/-- The LldpFrame the host may take: `out`, only when the run ended `OK` (10_state.md R31). -/
def State.lldpFrame (s : State) : Option (List Record) :=
  if s.phase = .done ∧ s.outcome = .ok then some s.out else none

/-- Taking `out` as a frame has no effect on the block; without an `OK` ending it is refused (R31, R139). -/
def hostTakeFrame (s : State) : StepResult :=
  match s.lldpFrame with
  | some _ => .next s
  | none => .refused .notAnLldpFrame

/-- The value a host read gives: a number for every register but `out` (10_state.md R13, R25). -/
inductive RegValue where
  | number (n : Nat)
  | records (out : List Record)
deriving DecidableEq, Repr

/-- What the host reads from a register, in any phase (10_state.md R25). -/
def State.readReg (s : State) : Reg → RegValue
  | .phase => .number s.phase.code.toNat
  | .frameLen => .number s.frameLen
  | .cursor => .number s.cursor
  | .recCount => .number s.recCount
  | .outcome => .number s.outcome.code.toNat
  | .errDetail => .number s.errDetail.toNat
  | .errTlvOffset => .number s.errTlvOffset
  | .errType => .number s.errType.toNat
  | .errLen => .number s.errLen.toNat
  | .errMin => .number s.errMin.toNat
  | .errMax => .number s.errMax.toNat
  | .errAvail => .number s.errAvail
  | .errPos => .number s.errPos
  | .out => .records s.out

/-- One host operation. A read gives `State.readReg` and has no side effect (10_state.md R25). -/
def hostOp (p : Params) (op : HostOp) (s : State) : StepResult :=
  match op with
  | .reset => .next (hostReset s)
  | .start n => hostStart p n s
  | .writeFrame addr bytes => hostWriteFrame p addr bytes s
  | .read _ => .next s
  | .takeFrame => hostTakeFrame s

end Sys2Proof.Machine
end

