-- ==== Sys2Proof/Machine/Step.lean ====
section
/-! DEFINITION. One step of the machine: a step of the agent whose turn it is. -/

namespace Sys2Proof.Machine

/-- The block's move (10_state.md R14): the VALIDATE step, one WALK step, or nothing in IDLE and DONE, where every register
keeps its value (60_exceptions.md R132; log entry 5). -/
def blockTurn (s : State) : Host.Outcome State Fault Refusal :=
  match s.phase with
  | .validate => exec .envelope s
  | .walk =>
    match fetchTlv s with
    | .ended s' => .next s'
    | .instr i => exec i s
    | .stopped h => s.halt h
  | .idle => .next s
  | .done => .next s

/-- One step: the next turn is taken off `turns`; with no turn listed the block moves (log entry 5). -/
def step (s : State) : Host.Outcome State Fault Refusal :=
  match s.turns with
  | [] => blockTurn s
  | .block :: rest => blockTurn { s with turns := rest }
  | .host op :: rest => hostOp Config.params op { s with turns := rest }

/-- `s` with the instruction word `w` (numbered as spec/opcode_table.json numbers it) where the next step fetches: an
ENVELOPE word has 112 bits, a TLV header 16 (log entry 7). -/
def State.withFetchWord (s : State) (nbits w : Nat) : State :=
  match nbits with
  | 112 => placeEnvelope s w
  | _ => placeTlv s w

end Sys2Proof.Machine
end

