-- ==== Sys2Proof/Machine/Assembly.lean ====
section
/-! DEFINITION. The spec's notation for test frames (30_encoding.md R63). It is no interface of the block
(92_eei_decisions.md D25). -/

namespace Sys2Proof.Machine

/-- A code point as UTF-8 bytes, by the ranges of 42_field_primitives.md R83. -/
def utf8EncodePoint (n : Nat) : List Byte :=
  if n < 0x80 then [BitVec.ofNat 8 n]
  else if n < 0x800 then [BitVec.ofNat 8 (0xC0 + n / 64), BitVec.ofNat 8 (0x80 + n % 64)]
  else if n < 0x10000 then
    [BitVec.ofNat 8 (0xE0 + n / 4096), BitVec.ofNat 8 (0x80 + n / 64 % 64), BitVec.ofNat 8 (0x80 + n % 64)]
  else
    [BitVec.ofNat 8 (0xF0 + n / 262144), BitVec.ofNat 8 (0x80 + n / 4096 % 64), BitVec.ofNat 8 (0x80 + n / 64 % 64),
      BitVec.ofNat 8 (0x80 + n % 64)]

/-- A text as UTF-8 bytes. -/
def utf8Encode (text : List Char) : List Byte :=
  text.flatMap fun ch => utf8EncodePoint ch.toNat

/-- One line of the notation (30_encoding.md R63). A MAC or an OUI is its bytes. -/
inductive Line where
  | eth (dst src : List Byte) (type : BitVec 16)
  | lldpEth (src : List Byte)
  | tlv (t : TypeCode) (bytes : List Byte)
  | tlvl (t : TypeCode) (l : TlvLen) (bytes : List Byte)
  | raw (bytes : List Byte)
  | endTlv
  | chassisMac (mac : List Byte)
  | portId (subtype : Byte) (text : List Char)
  | ttl (n : BitVec 16)
  | portDesc (text : List Char)
  | sysName (text : List Char)
  | sysDesc (text : List Char)
  | caps (sys en : BitVec 16)
  | mgmtV4 (a b c d : Byte) (ifSub : Byte) (ifNum : BitVec 32)
  | org (oui : List Byte) (sub : Byte) (bytes : List Byte)
deriving DecidableEq, Repr

/-- `TLV <t> : <bytes>`: the header for as many bytes as are listed; more than 511 have no header. -/
def assembleTlv (t : TypeCode) (bytes : List Byte) : Option (List Byte) :=
  if bytes.length ≤ 511 then some (headerBytes t (BitVec.ofNat 9 bytes.length) ++ bytes) else none

/-- The bytes a line assembles to (30_encoding.md R63). -/
def assembleLine : Line → Option (List Byte)
  | .eth dst src type =>
    if dst.length = 6 ∧ src.length = 6 then some (dst ++ src ++ bytesOfNat 2 type.toNat) else none
  | .lldpEth src => if src.length = 6 then some (lldpDstMac ++ src ++ bytesOfNat 2 lldpEtherType.toNat) else none
  | .tlv t bytes => assembleTlv t bytes
  | .tlvl t l bytes => some (headerBytes t l ++ bytes)
  | .raw bytes => some bytes
  | .endTlv => assembleTlv 0 []
  | .chassisMac mac => if mac.length = 6 then assembleTlv 1 (4 :: mac) else none
  | .portId subtype text => assembleTlv 2 (subtype :: utf8Encode text)
  | .ttl n => assembleTlv 3 (bytesOfNat 2 n.toNat)
  | .portDesc text => assembleTlv 4 (utf8Encode text)
  | .sysName text => assembleTlv 5 (utf8Encode text)
  | .sysDesc text => assembleTlv 6 (utf8Encode text)
  | .caps sys en => assembleTlv 7 (bytesOfNat 2 sys.toNat ++ bytesOfNat 2 en.toNat)
  | .mgmtV4 a b c d ifSub ifNum => assembleTlv 8 ([5, 1, a, b, c, d, ifSub] ++ bytesOfNat 4 ifNum.toNat ++ [0])
  | .org oui sub bytes => if oui.length = 3 then assembleTlv 127 (oui ++ sub :: bytes) else none

/-- A frame is the concatenation of its lines (30_encoding.md R63). -/
def assemble : List Line → Option (List Byte)
  | [] => some []
  | line :: lines =>
    match assembleLine line, assemble lines with
    | some b, some bs => some (b ++ bs)
    | some _, none => none
    | none, _ => none

end Sys2Proof.Machine
end

