-- ==== Sys2Proof/Machine/Render.lean ====
section
/-! DEFINITION. The host-side rendering of record fields (42_field_primitives.md R86 to R90): reference functions of a
record, no block outputs. A text is a list of characters. -/

namespace Sys2Proof.Machine

/-- A hexadecimal digit, lowercase (92_eei_decisions.md D13). -/
def hexDigit (n : Nat) : Char :=
  if n < 10 then Char.ofNat (48 + n) else Char.ofNat (87 + n)

/-- A byte as two lowercase hexadecimal digits. -/
def hexByte (b : Byte) : List Char :=
  [hexDigit (b.toNat / 16), hexDigit (b.toNat % 16)]

/-- Texts joined by one character. -/
def joinWith (sep : Char) : List (List Char) → List Char
  | [] => []
  | [t] => t
  | t :: u :: ts => t ++ sep :: joinWith sep (u :: ts)

/-- `RenderHexColon(s)` (42_field_primitives.md R86; wire order, 90_conflicts.md C2). -/
def renderHexColon (s : List Byte) : List Char := joinWith ':' (s.map hexByte)

/-- `RenderHexPlain(s)` (42_field_primitives.md R87). -/
def renderHexPlain (s : List Byte) : List Char := (s.map hexByte).flatten

/-- A byte in decimal with no leading zeros. -/
def decByte (b : Byte) : List Char :=
  let n := b.toNat
  let digit (d : Nat) : Char := Char.ofNat (48 + d)
  if n < 10 then [digit n]
  else if n < 100 then [digit (n / 10), digit (n % 10)]
  else [digit (n / 100), digit (n / 10 % 10), digit (n % 10)]

/-- `RenderDottedQuad(s)`, for a list of any length (42_field_primitives.md R88). -/
def renderDottedQuad (s : List Byte) : List Char := joinWith '.' (s.map decByte)

/-- `UTF8_TEXT`: the code points that `Utf8Valid` parsed, one after another (42_field_primitives.md R90). -/
def renderUtf8 (s : List Byte) : Option (List Char) := (utf8Decode s).map (·.map Char.ofNat)

/-- The text of a byte string with its tag, with the IPv6 text a function the caller names (42_field_primitives.md R89).
`OPAQUE` has no text, and ill-formed text has none. -/
def renderText (ipv6 : List Byte → List Char) (s : List Byte) : RenderTag → Option (List Char)
  | .opaqueBytes => none
  | .hexColon => some (renderHexColon s)
  | .hexPlain => some (renderHexPlain s)
  | .dottedQuad => some (renderDottedQuad s)
  | .colonHexV6 => some (ipv6 s)
  | .utf8Text => renderUtf8 s

/-- The texts of a record's byte strings in this hardware's rendering (42_field_primitives.md R86 to R90). -/
def Record.render (r : Record) : List (Option (List Char)) :=
  r.body.byteStrings.map fun (s, tag) => renderText Config.ipv6Render s tag

end Sys2Proof.Machine
end

