-- ==== Sys2Proof/Machine/Reference.lean ====
section
/-! DEFINITION. The block's steps as the spec's pseudocode writes them, for every setting of the build-time parameters:
the type registry (41_header_and_sequencer.md R74) and the WALK step (R70). `step` goes through fetch, decode and `exec` at
this hardware's parameters; here both values of every option can be run (R76, R92, R107). -/

namespace Sys2Proof.Machine

/-- `Dispatch(t)`, the type registry (41_header_and_sequencer.md R74). -/
def registry (p : Params) (t : TypeCode) : Decoder :=
  match t.toNat with
  | 0 => decodeEnd
  | 1 => decodeChassisId p
  | 2 => decodePortId
  | 3 => decodeTtl
  | 4 => decodePortDesc
  | 5 => decodeSysName
  | 6 => decodeSysDesc
  | 7 => decodeSysCap
  | 8 => decodeMgmtAddr p
  | 127 => decodeOrgSpecific
  | _ => decodeFallback

/-- What a computation that may end early makes of a step. -/
def State.settle (s : State) : Except Halt State → StepResult
  | .ok s' => .next s'
  | .error h => s.halt h

/-- The WALK step of 41_header_and_sequencer.md R70, line by line. -/
def walkWith (p : Params) (s : State) : StepResult :=
  let c := s.cursor
  let rem := s.frameLen - c
  if s.frameLen < c then .refused .readPastFrame
  else if rem = 0 then .next (s.finish .ok)
  else s.settle do
    check (rem ≠ 1) (.raised .header { tlvOffset := c, avail := 1, pos := c })
    let h ← s.memRead c 2
    let t := (decodeHeader h).1
    let l := (decodeHeader h).2
    check (¬ l.toNat > rem - 2)
      (.raised .value { tlvOffset := c, type := t, len := l, avail := rem - 2, pos := c + 2 })
    let v ← s.bytes (c + 2) l.toNat
    let body ← registry p t t l c v
    let s1 := (s.emit { typeCode := t, length := l, tlvOffset := c, body := body }).setCursor (c + 2 + l.toNat)
    .ok (if p.stopAtEnd ∧ t = 0 then s1.finish .ok else s1)

/-- The block's move at any parameters (10_state.md R14, 60_exceptions.md R132). -/
def blockStepWith (p : Params) (s : State) : StepResult :=
  match s.phase with
  | .validate => execEnvelope s
  | .walk => walkWith p s
  | .idle => .next s
  | .done => .next s

/-- One step at any parameters, turns as in `step` (log entry 5). -/
def stepWith (p : Params) (s : State) : StepResult :=
  match s.turns with
  | [] => blockStepWith p s
  | .block :: rest => blockStepWith p { s with turns := rest }
  | .host op :: rest => hostOp p op { s with turns := rest }

/-- The machine at any parameters, as the host's interface holds one. -/
def coreWith (p : Params) : Host.Core where
  State := State
  Fault := Fault
  Refusal := Refusal
  step := stepWith p
  reset := State.reset

end Sys2Proof.Machine
end

