-- ==== Sys2Proof/Safety.lean ====
section
/-! DEFINITION. The terms in which claims speak: whose turn it is, a TLV ready to be walked, the state an emitted record
leaves, and the invariants of a good state. -/

namespace Sys2Proof.Machine

/-- It is the block's turn. -/
def State.blockMoves (s : State) : Bool :=
  match s.turns with
  | [] => true
  | .block :: _ => true
  | .host _ :: _ => false

/-- The state with its next turn taken off. -/
def State.afterTurn (s : State) : State := { s with turns := s.turns.tail }

/-- The block is in WALK, the TLV whose header is at the cursor lies whole in the frame with a value of length `l`, and
that value is `v` (20_memory.md R39, 30_encoding.md R54). -/
abbrev State.tlvReady (s : State) (l : TlvLen) (v : List Byte) : Prop :=
  s.phase = .walk ∧ s.cursor + 2 + l.toNat ≤ s.frameLen ∧ s.frame.readBytes (s.cursor + 2) l.toNat = some v

/-- The state after a WALK step that emitted a record: one record more in `out`, counted, and the cursor past the TLV.
Every other field is as it was (41_header_and_sequencer.md R70, R75; 10_state.md R26). -/
def State.withRecord (s : State) (t : TypeCode) (l : TlvLen) (body : RecordBody) : State :=
  { s with
    out := s.out ++ [{ typeCode := t, length := l, tlvOffset := s.cursor, body := body }]
    recCount := s.recCount + 1
    cursor := s.cursor + 2 + l.toNat }

/-- The state after an error ending: the registers of 60_exceptions.md R116 and no others. -/
def State.endedWith (s : State) (o : FrameOutcome) (d : BitVec 4) (info : ErrInfo) : State :=
  { s with
    phase := .done, outcome := o, errDetail := d
    errTlvOffset := info.tlvOffset, errType := info.type, errLen := info.len, errMin := info.min
    errMax := info.max, errAvail := info.avail, errPos := info.pos }

/-- The payload bytes that records stand for: the sum of `2 + length` (10_state.md R22, 41_header_and_sequencer.md R77). -/
def payloadUsed (out : List Record) : Nat := (out.map fun r => 2 + r.length.toNat).sum

/-- The cursor invariants of 10_state.md R22, with what VALIDATE leaves for them: nothing emitted, cursor at 0. -/
abbrev CursorInv (s : State) : Prop :=
  s.cursor ≤ s.frameLen
  ∧ (s.phase = .walk → 14 ≤ s.cursor)
  ∧ (s.out ≠ [] ∨ s.phase = .walk → 14 + payloadUsed s.out = s.cursor)
  ∧ s.recCount = s.out.length
  ∧ (s.phase = .validate → s.cursor = 0 ∧ s.out = [])

/-- All the error-information registers hold 0 (10_state.md R20). -/
abbrev State.errInfoZero (s : State) : Prop :=
  s.errTlvOffset = 0 ∧ s.errType = 0 ∧ s.errLen = 0 ∧ s.errMin = 0 ∧ s.errMax = 0 ∧ s.errAvail = 0 ∧ s.errPos = 0

/-- What the error registers hold, row by row of the table in 60_exceptions.md R122. A state whose outcome and detail are
no row of R114 meets none of them. -/
def State.errInfoRow (s : State) : Prop :=
  match s.outcome, s.errDetail.toNat with
  | .none, 0 => s.errInfoZero
  | .ok, 0 => s.errInfoZero
  | .notLldp, 1 => s.errInfoZero
  | .notLldp, 2 => s.errInfoZero
  | .truncatedFrame, 1 =>
    s.errTlvOffset = 0 ∧ s.errType = 0 ∧ s.errLen = 0 ∧ s.errMin = 0 ∧ s.errMax = 0 ∧ s.errPos = 0
    ∧ s.errAvail = s.frameLen ∧ s.frameLen < 14
  | .truncatedFrame, 2 =>
    s.errType = 0 ∧ s.errLen = 0 ∧ s.errMin = 0 ∧ s.errMax = 0
    ∧ s.errTlvOffset = s.cursor ∧ s.errAvail = 1 ∧ s.errPos = s.cursor ∧ s.cursor + 1 = s.frameLen
  | .truncatedFrame, 3 =>
    s.errMin = 0 ∧ s.errMax = 0
    ∧ s.errTlvOffset = s.cursor ∧ s.cursor + 2 + s.errAvail = s.frameLen ∧ s.errAvail < s.errLen.toNat
    ∧ s.errPos = s.cursor + 2
  | .invalidTlvLength, 1 =>
    s.errAvail = 0 ∧ s.errTlvOffset = s.cursor ∧ (s.errMin, s.errMax) = lengthBounds s.errType
    ∧ s.errLen < s.errMin ∧ s.errPos = s.cursor + 2
    ∧ s.cursor + 2 + s.errLen.toNat ≤ s.frameLen
  | .invalidTlvLength, 2 =>
    s.errAvail = 0 ∧ s.errTlvOffset = s.cursor ∧ (s.errMin, s.errMax) = lengthBounds s.errType
    ∧ s.errMax < s.errLen ∧ s.errPos = s.cursor + 2
    ∧ s.cursor + 2 + s.errLen.toNat ≤ s.frameLen
  | .invalidFieldValue, d =>
    1 ≤ d ∧ d ≤ 6 ∧ s.errAvail = 0 ∧ s.errMin = 0 ∧ s.errMax = 0 ∧ s.errType = 8
    ∧ s.errTlvOffset = s.cursor ∧ s.cursor + 2 ≤ s.errPos ∧ s.errPos < s.cursor + 2 + s.errLen.toNat
    ∧ s.cursor + 2 + s.errLen.toNat ≤ s.frameLen
  | .decodeError, 1 =>
    s.errAvail = 0 ∧ s.errMin = 0 ∧ s.errMax = 0 ∧ s.errTlvOffset = s.cursor
    ∧ s.errPos ≤ s.cursor + 2 + s.errLen.toNat ∧ s.cursor + 2 + s.errLen.toNat ≤ s.frameLen
    ∧ ((s.errType = 2 ∧ s.errPos = s.cursor + 3)
      ∨ ((s.errType = 4 ∨ s.errType = 5 ∨ s.errType = 6) ∧ s.errPos = s.cursor + 2))
  | _, _ => False

/-- The status invariant: `outcome` is NONE exactly before DONE (10_state.md R14, R18), `err_detail` is a row of R114 for
the outcome, and the error registers hold what 60_exceptions.md R122 says. In IDLE every register is as reset left it. -/
def StatusInv (s : State) : Prop :=
  (s.phase = .done ↔ s.outcome ≠ .none)
  ∧ s.errInfoRow
  ∧ (s.phase = .idle → s.frameLen = 0 ∧ s.cursor = 0 ∧ s.recCount = 0 ∧ s.out = [])

/-- What an ending says of the walk on this hardware (`STOP_AT_END = false`): an `OK` frame was consumed whole
(41_header_and_sequencer.md R71, R77), and a frame that is not LLDP left the cursor at 0 with nothing emitted
(60_exceptions.md R123). -/
abbrev EndingInv (s : State) : Prop :=
  (s.outcome = .ok → 14 + payloadUsed s.out = s.frameLen ∧ s.cursor = s.frameLen)
  ∧ (s.outcome = .notLldp → s.out = [] ∧ s.recCount = 0 ∧ s.cursor = 0)

/-- The fields of a record agree with its header and with the rule of its kind (30_encoding.md R58, R61, R62,
43_tlv_decoders_basic.md, 44_tlv_decoders_structured.md), at this hardware's parameters. -/
def Record.ok (r : Record) : Prop :=
  ((lengthBounds r.typeCode).1 ≤ r.length ∧ r.length ≤ (lengthBounds r.typeCode).2)
  ∧ match r.body with
    | .endLldpdu => r.typeCode = 0
    | .chassisId sub cls id render =>
      r.typeCode = 1 ∧ 1 + id.length = r.length.toNat ∧ cls.code = min sub.toNat 8
      ∧ render = (if sub = 4 then RenderTag.hexColon else RenderTag.hexPlain)
    | .portId sub cls text =>
      r.typeCode = 2 ∧ 1 + text.length = r.length.toNat ∧ cls.code = min sub.toNat 8 ∧ utf8Valid text = true
    | .ttl _ => r.typeCode = 3
    | .portDesc text => r.typeCode = 4 ∧ text.length = r.length.toNat ∧ utf8Valid text = true
    | .sysName text => r.typeCode = 5 ∧ text.length = r.length.toNat ∧ utf8Valid text = true
    | .sysDesc text => r.typeCode = 6 ∧ text.length = r.length.toNat ∧ utf8Valid text = true
    | .sysCap sys en sysCaps enCaps =>
      r.typeCode = 7 ∧ ∀ i : Fin 8, sysCaps[i] = sys.getLsbD i ∧ enCaps[i] = en.getLsbD i
    | .mgmtAddr n asub addr render ifs ifn m present oid =>
      r.typeCode = 8 ∧ 1 + addr.length = n.toNat ∧ oid.length = m.toNat
      ∧ n.toNat + 7 + m.toNat = r.length.toNat ∧ ifs.toNat ≤ 3 ∧ (ifs = 0 → ifn = 0) ∧ (present = true ↔ m ≠ 0)
      ∧ render = addrRender asub
    | .orgSpecific oui _ info => r.typeCode = 127 ∧ oui.length = 3 ∧ 4 + info.length = r.length.toNat
    | .unimplemented raw => r.typeCode.isFallback = true ∧ raw.length = r.length.toNat

/-- Records stand in wire order, back to back from an offset (30_encoding.md R54, 41_header_and_sequencer.md R79). -/
def contiguousFrom : Nat → List Record → Prop
  | _, [] => True
  | at_, r :: rs => r.tlvOffset = at_ ∧ contiguousFrom (at_ + 2 + r.length.toNat) rs

/-- Every record of `out` is well formed, and they stand back to back from offset 14 (10_state.md R23, R32). -/
def RecordsInv (s : State) : Prop :=
  (∀ r ∈ s.out, r.ok) ∧ contiguousFrom 14 s.out

/-- Every byte of the frame was written by the host (70_reset_and_hazards.md R139). -/
abbrev Loaded (s : State) : Prop := ∀ a < s.frameLen, (s.frame.read a).isSome

/-- A run in progress is over a loaded frame (70_reset_and_hazards.md R139, 20_memory.md R35). -/
abbrev RunLoaded (s : State) : Prop := s.phase = .validate ∨ s.phase = .walk → Loaded s

/-- The registers of two states agree; FRAME and the turns may differ. -/
abbrev State.sameRegisters (s t : State) : Prop :=
  { s with frame := t.frame, turns := t.turns } = t

/-- `k` steps of the machine, stopping at the first stop. -/
def stepRun : Nat → State → StepResult
  | 0, s => .next s
  | k + 1, s =>
    match step s with
    | .next s' => stepRun k s'
    | .fault f => .fault f
    | .refused r => .refused r

/-- What `INVALID_TLV_LENGTH` leaves when a length is out of the bounds `lo..hi` of type `t` (42_field_primitives.md R80,
60_exceptions.md R122): detail BELOW_MIN or ABOVE_MAX, the header, the bounds, and nothing else written. -/
def raisesLengthErrors (t : TypeCode) (lo hi : TlvLen) (run : TlvLen → State → StepResult) : Prop :=
  ∀ (s : State) (l : TlvLen) (v : List Byte), s.tlvReady l v →
    (l < lo → run l s = .next (s.endedWith .invalidTlvLength 1
      { tlvOffset := s.cursor, type := t, len := l, min := lo, max := hi, pos := s.cursor + 2 }))
    ∧ (hi < l → run l s = .next (s.endedWith .invalidTlvLength 2
      { tlvOffset := s.cursor, type := t, len := l, min := lo, max := hi, pos := s.cursor + 2 }))

/-- Every header `h` with `h & 0xFE00 = pattern` stands for the instruction `mk` of its length (30_encoding.md R56). -/
def headerSelects (pattern : BitVec 16) (mk : TlvLen → Instr) : Prop :=
  ∀ h : BitVec 16, h &&& 0xFE00 = pattern → decodeHeaderWord h = mk (h.setWidth 9)

/-- The most block steps a run takes: one VALIDATE and `⌊(frame_len - 14)/2⌋ + 1` WALK steps
(41_header_and_sequencer.md R78). -/
def runBound (frameLen : Nat) : Nat := (frameLen - 14) / 2 + 2

end Sys2Proof.Machine
end

