-- ==== Sys2Proof/Certificates/Slice0/Obligations.lean ====
section
/-! DEFINITION. The statements for the provers. Each docstring names the rule it formalises. -/

open Sys2Proof Sys2Proof.Machine

/-! ## Reset and the host's operations -/

/-- 70_reset_and_hazards.md R135: what every register holds after RESET. -/
def Obligations.ResetStateHoldsTheResetValues : Prop :=
  State.reset.phase = .idle ∧ State.reset.phase.code = 0 ∧ State.reset.frameLen = 0 ∧ State.reset.cursor = 0
  ∧ State.reset.recCount = 0 ∧ State.reset.outcome = .none ∧ State.reset.outcome.code = 0
  ∧ State.reset.errDetail = 0 ∧ State.reset.errTlvOffset = 0 ∧ State.reset.errType = 0 ∧ State.reset.errLen = 0
  ∧ State.reset.errMin = 0 ∧ State.reset.errMax = 0 ∧ State.reset.errAvail = 0 ∧ State.reset.errPos = 0
  ∧ State.reset.out = []

/-- 70_reset_and_hazards.md R134: RESET is enabled in every phase, sets every register to its reset value in one step
(a run in progress loses the records it emitted) and leaves FRAME alone. -/
def Obligations.HostResetRestoresRegistersInEveryPhase : Prop :=
  ∀ (p : Params) (s : State), ∃ t, hostOp p .reset s = .next t
    ∧ t.frame = s.frame ∧ t.turns = s.turns ∧ State.sameRegisters State.reset t

/-- START(n) in IDLE or DONE with `n ≤ MAX_FRAME_LEN` and every byte below `n` written sets `frame_len`, clears every other
register and enters VALIDATE; otherwise it is refused. 10_state.md R30 enables START on `phase` and `n` alone.
70_reset_and_hazards.md R139 has the host make `FRAME[0..n-1]` hold the frame's bytes and a run that breaks this refused; that
the model refuses it at START, on a byte that was never written, is its own choice (DESIGN CHOICE, log entry 3). -/
def Obligations.HostStartBeginsARun : Prop :=
  ∀ (p : Params) (n : Nat) (s : State),
    (s.phase = .idle ∨ s.phase = .done → n ≤ p.maxFrameLen → (∀ a < n, (s.frame.read a).isSome) →
      hostOp p (.start n) s = .next { s with
        frameLen := n, cursor := 0, recCount := 0, out := [], outcome := .none, errDetail := 0, errTlvOffset := 0
        errType := 0, errLen := 0, errMin := 0, errMax := 0, errAvail := 0, errPos := 0, phase := .validate })
    ∧ (s.phase = .validate ∨ s.phase = .walk → hostOp p (.start n) s = .refused .startDuringRun)
    ∧ (s.phase = .idle ∨ s.phase = .done → p.maxFrameLen < n → hostOp p (.start n) s = .refused .frameTooLong)
    ∧ (s.phase = .idle ∨ s.phase = .done → n ≤ p.maxFrameLen → ∀ a < n, s.frame.read a = none →
      hostOp p (.start n) s = .refused .frameNotWritten)

/-- 20_memory.md section 1, 70_reset_and_hazards.md sections 2 and 3: a host write lands in IDLE and DONE, at the written
offsets only, and changes no register; in a run it is refused. That a write past the `CURSOR_W`-bit offsets faults is the
model's choice (log entry 4). -/
def Obligations.HostFrameWriteLandsOnlyOutsideARun : Prop :=
  ∀ (p : Params) (addr : Nat) (bytes : List Byte) (s : State),
    (s.phase = .idle ∨ s.phase = .done → addr + bytes.length ≤ 2 ^ p.cursorW →
      ∃ t, hostOp p (.writeFrame addr bytes) s = .next t ∧ { s with frame := t.frame } = t
        ∧ (∀ i (h : i < bytes.length), t.frame.read (addr + i) = some bytes[i])
        ∧ (∀ a, a < addr ∨ addr + bytes.length ≤ a → t.frame.read a = s.frame.read a))
    ∧ (s.phase = .idle ∨ s.phase = .done → 2 ^ p.cursorW < addr + bytes.length →
      hostOp p (.writeFrame addr bytes) s = .fault .addressOutsideFrame)
    ∧ (s.phase = .validate ∨ s.phase = .walk → hostOp p (.writeFrame addr bytes) s = .refused .frameWriteDuringRun)

/-- 10_state.md R31: the host may take `out` as the LldpFrame exactly when the run ended `OK`. -/
def Obligations.OnlyAnOkRunGivesAnLldpFrame : Prop :=
  ∀ (p : Params) (s : State),
    (s.phase = .done ∧ s.outcome = .ok → s.lldpFrame = some s.out ∧ hostOp p .takeFrame s = .next s)
    ∧ (¬ (s.phase = .done ∧ s.outcome = .ok) →
      s.lldpFrame = none ∧ hostOp p .takeFrame s = .refused .notAnLldpFrame)

/-- 10_state.md section 3 (R25): a register read is allowed in every phase and changes nothing; `phase` and `outcome` read
as their codes. -/
def Obligations.HostReadsHaveNoSideEffect : Prop :=
  ∀ (p : Params) (s : State) (r : Reg), hostOp p (.read r) s = .next s
    ∧ s.readReg .phase = .number s.phase.code.toNat ∧ s.readReg .outcome = .number s.outcome.code.toNat
    ∧ s.readReg .cursor = .number s.cursor ∧ s.readReg .out = .records s.out

/-- 10_state.md R18 and 60_exceptions.md R114: the code of every outcome (7 is none of them), which are errors, and the
outcome and detail code of every ending. -/
def Obligations.EndingCodesFollowTheTable : Prop :=
  (FrameOutcome.code .none = 0 ∧ FrameOutcome.code .ok = 1 ∧ FrameOutcome.code .notLldp = 2
    ∧ FrameOutcome.code .truncatedFrame = 3 ∧ FrameOutcome.code .invalidTlvLength = 4
    ∧ FrameOutcome.code .invalidFieldValue = 5 ∧ FrameOutcome.code .decodeError = 6)
  ∧ (∀ o : FrameOutcome, o.code ≠ 7 ∧ (o.isError = true ↔ 3 ≤ o.code))
  ∧ (∀ s : State, s.finish .ok = { s with outcome := .ok, errDetail := 0, phase := .done }
    ∧ s.finish .notLldpEtherType = { s with outcome := .notLldp, errDetail := 1, phase := .done }
    ∧ s.finish .notLldpDstMac = { s with outcome := .notLldp, errDetail := 2, phase := .done })
  ∧ ∀ (s : State) (info : ErrInfo),
    s.raise .envelope info = s.endedWith .truncatedFrame 1 info
    ∧ s.raise .header info = s.endedWith .truncatedFrame 2 info
    ∧ s.raise .value info = s.endedWith .truncatedFrame 3 info
    ∧ s.raise .belowMin info = s.endedWith .invalidTlvLength 1 info
    ∧ s.raise .aboveMax info = s.endedWith .invalidTlvLength 2 info
    ∧ s.raise .mgmtAddrLenZero info = s.endedWith .invalidFieldValue 1 info
    ∧ s.raise .mgmtAddrOverrun info = s.endedWith .invalidFieldValue 2 info
    ∧ s.raise .mgmtIfSubtypeRange info = s.endedWith .invalidFieldValue 3 info
    ∧ s.raise .mgmtIfReservedNonzero info = s.endedWith .invalidFieldValue 4 info
    ∧ s.raise .mgmtOidOverrun info = s.endedWith .invalidFieldValue 5 info
    ∧ s.raise .mgmtTrailing info = s.endedWith .invalidFieldValue 6 info
    ∧ s.raise .utf8Invalid info = s.endedWith .decodeError 1 info

/-! ## Encoding -/

/-- 95_test_vectors.md L2.1 and L3 P1: words written out from the spec's encodings decode to the instruction they stand
for, one of every family. -/
def Obligations.WrittenOutWordsDecode : Prop :=
  decode .tlvhdr16 [0x00, 0x00] = .instr (.endLldpdu 0) []
  ∧ decode .tlvhdr16 [0x01, 0xFF] = .instr (.endLldpdu 511) []
  ∧ decode .tlvhdr16 [0x02, 0x07] = .instr (.chassisId 7) []
  ∧ decode .tlvhdr16 [0x0A, 0x03, 0x73] = .instr (.sysName 3) [0x73]
  ∧ decode .tlvhdr16 [0x10, 0x0C] = .instr (.mgmtAddr 12) []
  ∧ decode .tlvhdr16 [0x12, 0x02] = .instr (.unimplemented 9 2) []
  ∧ decode .tlvhdr16 [0xFC, 0x01] = .instr (.unimplemented 126 1) []
  ∧ decode .tlvhdr16 [0xFF, 0xFF] = .instr (.orgSpecific 511) []
  ∧ decode .eth14 [0x01, 0x80, 0xC2, 0x00, 0x00, 0x0E, 0x00, 0x11, 0x22, 0x33, 0x44, 0x55, 0x88, 0xCC]
      = .instr .envelope []

/-- 41_header_and_sequencer.md R69: the header packer, its bytes on the wire, and the round-trip law both ways. -/
def Obligations.HeaderCodecRoundTrips : Prop :=
  (∀ (t : TypeCode) (l : TlvLen), decodeHeader (encodeHeader t l) = (t, l)
    ∧ (encodeHeader t l).toNat = t.toNat * 512 + l.toNat
    ∧ headerBytes t l = [((encodeHeader t l) >>> 8).setWidth 8, (encodeHeader t l).setWidth 8])
  ∧ ∀ h : BitVec 16, encodeHeader (decodeHeader h).1 (decodeHeader h).2 = h

/-- 30_encoding.md R56: the type registry by match and mask; every header that no row matches is a fallback of type 9 to
126 that keeps its type code. -/
def Obligations.OpcodeMapFollowsTheRegistryTable : Prop :=
  headerSelects 0x0000 .endLldpdu ∧ headerSelects 0x0200 .chassisId ∧ headerSelects 0x0400 .portId
  ∧ headerSelects 0x0600 .ttl ∧ headerSelects 0x0800 .portDesc ∧ headerSelects 0x0A00 .sysName
  ∧ headerSelects 0x0C00 .sysDesc ∧ headerSelects 0x0E00 .sysCap ∧ headerSelects 0x1000 .mgmtAddr
  ∧ headerSelects 0xFE00 .orgSpecific
  ∧ ∀ h : BitVec 16, 9 ≤ h.toNat / 512 → h.toNat / 512 ≤ 126 →
    decodeHeaderWord h = .unimplemented (BitVec.ofNat 7 (h.toNat / 512)) (h.setWidth 9)

/-- Decode and encode agree on every well-formed instruction and every operand value; every 16-bit word is the encoding of
exactly the well-formed instruction it decodes to (30_encoding.md section 2); any source MAC decodes as the envelope. -/
def Obligations.DecodeInvertsEncode : Prop :=
  (∀ (i : Instr) (rest : List Byte), i.wellFormed = true → decode i.format (encode i ++ rest) = .instr i rest)
  ∧ (∀ (b0 b1 : Byte) (rest : List Byte), ∃ i, decode .tlvhdr16 (b0 :: b1 :: rest) = .instr i rest
      ∧ i.wellFormed = true ∧ encode i = [b0, b1])
  ∧ ∀ (src : BitVec 48) (rest : List Byte), decode .eth14 (envelopeBytes src ++ rest) = .instr .envelope rest

/-- An envelope is refused by name: too short, a wrong EtherType whatever the destination, or a wrong destination
(40_frame_validator.md section on R64 to R66). -/
def Obligations.EnvelopeDecoderRejectsByName : Prop :=
  (∀ bs : List Byte, bs.length < 14 → decode .eth14 bs = .rejected .tooShort)
  ∧ (∀ dst src rest : List Byte, ∀ hi lo : Byte, dst.length = 6 → src.length = 6 → ¬ (hi = 0x88 ∧ lo = 0xCC) →
      decode .eth14 (dst ++ src ++ hi :: lo :: rest) = .rejected .etherTypeMismatch)
  ∧ (∀ dst src rest : List Byte, dst.length = 6 → src.length = 6 → dst ≠ [0x01, 0x80, 0xC2, 0x00, 0x00, 0x0E] →
      decode .eth14 (dst ++ src ++ 0x88 :: 0xCC :: rest) = .rejected .dstMacMismatch)

/-! ## The step -/

/-- A step is a step of the agent whose turn it is. In WALK, when the bytes at the cursor decode to an instruction and its
header lies in the frame, the step is `exec` of it; in VALIDATE it is `exec` of the envelope; a host turn is its operation.
`step` adds nothing but taking the turn off (log entry 5). -/
def Obligations.StepRunsTheDecodedInstruction : Prop :=
  ∀ s : State,
    (∀ (i : Instr) (n : Nat) (bs rest : List Byte), s.blockMoves = true → s.phase = .walk →
      s.cursor + 2 ≤ s.frameLen → s.frame.readBytes s.cursor n = some bs → decode .tlvhdr16 bs = .instr i rest →
      step s = exec i s.afterTurn)
    ∧ (s.blockMoves = true → s.phase = .validate → step s = exec .envelope s.afterTurn)
    ∧ (∀ (i : Instr) (n : Nat) (bs rest : List Byte), s.blockMoves = true → s.phase = .validate →
      s.frame.readBytes 0 n = some bs → decode .eth14 bs = .instr i rest → step s = exec i s.afterTurn)
    ∧ ∀ (op : HostOp) (rest : List Turn), s.turns = .host op :: rest →
      step s = hostOp Config.params op { s with turns := rest }

/-- 60_exceptions.md R132: in IDLE and DONE the block takes no step and every register keeps its value. The stutter that
stands for it is the model's choice (log entry 5). -/
def Obligations.IdleAndDoneKeepEveryRegister : Prop :=
  ∀ s : State, s.blockMoves = true → s.phase = .idle ∨ s.phase = .done → step s = .next s.afterTurn

/-- 41_header_and_sequencer.md R70 and R74: the step through fetch, decode and `exec` is the pseudocode's step, with the
type registry as a match on the type code, at this hardware's parameters. -/
def Obligations.StepIsTheSpecsPseudocode : Prop :=
  ∀ s : State, step s = stepWith Config.params s

/-- 41_header_and_sequencer.md R71: at the end of the payload the frame ends `OK`, and with the default policy it ends `OK`
nowhere else. -/
def Obligations.WalkEndsOkExactlyAtThePayloadEnd : Prop :=
  ∀ s : State, s.blockMoves = true → s.phase = .walk →
    (s.cursor = s.frameLen →
      step s = .next { s.afterTurn with outcome := .ok, errDetail := 0, phase := .done })
    ∧ ∀ s', s.outcome = .none → step s = .next s' → s'.outcome = .ok → s.cursor = s.frameLen ∧ s'.phase = .done

/-- 41_header_and_sequencer.md R72 and 60_exceptions.md section 3: one byte left ends the frame with
`TRUNCATED_FRAME(HEADER)`, without reading it. -/
def Obligations.OneByteLeftIsATruncatedHeader : Prop :=
  ∀ s : State, s.blockMoves = true → s.phase = .walk → s.cursor + 1 = s.frameLen →
    step s = .next (s.afterTurn.endedWith .truncatedFrame 2
      { tlvOffset := s.cursor, avail := 1, pos := s.cursor })

/-- 41_header_and_sequencer.md R73: a header that announces more bytes than remain ends the frame with
`TRUNCATED_FRAME(VALUE)`, for every type code and before any check of the decoder. -/
def Obligations.ValueTruncationComesBeforeDispatch : Prop :=
  ∀ (i : Instr) (t : TypeCode) (l : TlvLen) (s : State), i.header? = some (t, l) → s.phase = .walk →
    s.cursor + 2 ≤ s.frameLen → s.frameLen < s.cursor + 2 + l.toNat →
    exec i s = .next (s.endedWith .truncatedFrame 3
      { tlvOffset := s.cursor, type := t, len := l, avail := s.frameLen - s.cursor - 2, pos := s.cursor + 2 })

/-! ## The frame validator -/

/-- 40_frame_validator.md R67: an LLDP envelope hands the payload over: cursor 14, phase WALK, nothing else written. -/
def Obligations.LldpEnvelopeEntersWalk : Prop :=
  ∀ s : State, s.phase = .validate → 14 ≤ s.frameLen → s.frame.readBytes 12 2 = some [0x88, 0xCC] →
    s.frame.readBytes 0 6 = some [0x01, 0x80, 0xC2, 0x00, 0x00, 0x0E] →
    exec .envelope s = .next { s with cursor := 14, phase := .walk }

/-- 40_frame_validator.md R65, R66 and 60_exceptions.md R119: the length is checked first and reads nothing, then the
EtherType whatever the destination is, then the destination MAC; every ending writes only what R115 and R116 name. -/
def Obligations.BadEnvelopeEndsTheFrame : Prop :=
  ∀ s : State, s.phase = .validate →
    (s.frameLen < 14 → exec .envelope s = .next (s.endedWith .truncatedFrame 1 { avail := s.frameLen }))
    ∧ (∀ hi lo : Byte, 14 ≤ s.frameLen → s.frame.readBytes 12 2 = some [hi, lo] → ¬ (hi = 0x88 ∧ lo = 0xCC) →
      exec .envelope s = .next { s with outcome := .notLldp, errDetail := 1, phase := .done })
    ∧ (∀ dst : List Byte, 14 ≤ s.frameLen → s.frame.readBytes 12 2 = some [0x88, 0xCC] →
      s.frame.readBytes 0 6 = some dst → dst ≠ [0x01, 0x80, 0xC2, 0x00, 0x00, 0x0E] →
      exec .envelope s = .next { s with outcome := .notLldp, errDetail := 2, phase := .done })

/-- 30_encoding.md R50: the source MAC is never read: the block steps alike from two states that differ in FRAME at offsets
6 to 11 only. That the cursor of a WALK state is past the envelope is 10_state.md R22. -/
def Obligations.SourceMacIsNeverRead : Prop :=
  ∀ s t : State, s.turns = [] → t.turns = [] → s.sameRegisters t →
    (∀ a, a < 6 ∨ 12 ≤ a → s.frame.read a = t.frame.read a) →
    (s.phase = .walk → 14 ≤ s.cursor) →
    (∀ s', step s = .next s' → ∃ t', step t = .next t' ∧ s'.sameRegisters t')
    ∧ ∀ r, step s = .refused r → step t = .refused r

/-! ## The decoders -/

/-- 43_tlv_decoders_basic.md R91: END. -/
def Obligations.EndDecodesToAnEmptyRecord : Prop :=
  (∀ s : State, s.tlvReady 0 [] → exec (.endLldpdu 0) s = .next (s.withRecord 0 0 .endLldpdu))
  ∧ headerSelects 0x0000 .endLldpdu
  ∧ raisesLengthErrors 0 0 0 fun l s => exec (.endLldpdu l) s

/-- 41_header_and_sequencer.md R76: the END policy, at any parameters: with `STOP_AT_END` the END record ends the frame `OK`
past it, without it the walk goes on, and an END header with a length raises under either. -/
def Obligations.EndPolicyFollowsStopAtEnd : Prop :=
  ∀ (p : Params) (s : State), s.phase = .walk →
    (s.tlvReady 0 [] → s.frame.readBytes s.cursor 2 = some [0x00, 0x00] →
      (p.stopAtEnd = true → blockStepWith p s =
        .next { s.withRecord 0 0 .endLldpdu with outcome := .ok, errDetail := 0, phase := .done })
      ∧ (p.stopAtEnd = false → blockStepWith p s = .next (s.withRecord 0 0 .endLldpdu)))
    ∧ (∀ (l : TlvLen) (v : List Byte), l ≠ 0 → s.tlvReady l v →
      s.frame.readBytes s.cursor 2 = some (headerBytes 0 l) →
      blockStepWith p s = .next (s.endedWith .invalidTlvLength 2
        { tlvOffset := s.cursor, type := 0, len := l, pos := s.cursor + 2 }))

/-- 43_tlv_decoders_basic.md R92: CHASSIS_ID. The id is everything after the subtype, and with `FIRST_SIX` its first six
bytes. -/
def Obligations.ChassisIdDecodes : Prop :=
  (∀ (s : State) (l : TlvLen) (sub : Byte) (id : List Byte), 7 ≤ l → l ≤ 256 → s.tlvReady l (sub :: id) →
    ∃ cls : SubtypeClass, cls.code = (if sub.toNat ≤ 7 then sub.toNat else 8)
      ∧ exec (.chassisId l) s
        = .next (s.withRecord 1 l (.chassisId sub cls id (if sub = 4 then .hexColon else .hexPlain)))
      ∧ ∀ p : Params, p.chassisIdField = .firstSix →
        decodeChassisId p 1 l s.cursor (sub :: id)
          = .ok (.chassisId sub cls (id.take 6) (if sub = 4 then .hexColon else .hexPlain)))
  ∧ headerSelects 0x0200 .chassisId
  ∧ raisesLengthErrors 1 7 256 fun l s => exec (.chassisId l) s

/-- 43_tlv_decoders_basic.md R93: PORT_ID. -/
def Obligations.PortIdDecodes : Prop :=
  (∀ (s : State) (l : TlvLen) (sub : Byte) (text : List Byte), l ≤ 255 → s.tlvReady l (sub :: text) →
    (utf8Valid text = true → ∃ cls : SubtypeClass, cls.code = (if sub.toNat ≤ 7 then sub.toNat else 8)
      ∧ exec (.portId l) s = .next (s.withRecord 2 l (.portId sub cls text)))
    ∧ (utf8Valid text = false → exec (.portId l) s = .next (s.endedWith .decodeError 1
        { tlvOffset := s.cursor, type := 2, len := l, pos := s.cursor + 3 })))
  ∧ headerSelects 0x0400 .portId
  ∧ raisesLengthErrors 2 1 255 fun l s => exec (.portId l) s

/-- 43_tlv_decoders_basic.md R94: TTL, 16 bits big-endian. -/
def Obligations.TtlDecodes : Prop :=
  (∀ (s : State) (hi lo : Byte), s.tlvReady 2 [hi, lo] →
    exec (.ttl 2) s = .next (s.withRecord 3 2 (.ttl (BitVec.ofNat 16 (hi.toNat * 256 + lo.toNat)))))
  ∧ headerSelects 0x0600 .ttl
  ∧ raisesLengthErrors 3 2 2 fun l s => exec (.ttl l) s

/-- 43_tlv_decoders_basic.md R95, R96, R97: the three text types. -/
def Obligations.TextTlvsDecode : Prop :=
  (∀ (s : State) (l : TlvLen) (text : List Byte), l ≤ 255 → s.tlvReady l text →
    (utf8Valid text = true →
      exec (.portDesc l) s = .next (s.withRecord 4 l (.portDesc text))
      ∧ exec (.sysName l) s = .next (s.withRecord 5 l (.sysName text))
      ∧ exec (.sysDesc l) s = .next (s.withRecord 6 l (.sysDesc text)))
    ∧ (utf8Valid text = false →
      exec (.portDesc l) s = .next (s.endedWith .decodeError 1
        { tlvOffset := s.cursor, type := 4, len := l, pos := s.cursor + 2 })
      ∧ exec (.sysName l) s = .next (s.endedWith .decodeError 1
        { tlvOffset := s.cursor, type := 5, len := l, pos := s.cursor + 2 })
      ∧ exec (.sysDesc l) s = .next (s.endedWith .decodeError 1
        { tlvOffset := s.cursor, type := 6, len := l, pos := s.cursor + 2 })))
  ∧ headerSelects 0x0800 .portDesc ∧ headerSelects 0x0A00 .sysName ∧ headerSelects 0x0C00 .sysDesc
  ∧ raisesLengthErrors 4 0 255 (fun l s => exec (.portDesc l) s)
  ∧ raisesLengthErrors 5 0 255 (fun l s => exec (.sysName l) s)
  ∧ raisesLengthErrors 6 0 255 (fun l s => exec (.sysDesc l) s)

/-- 43_tlv_decoders_basic.md R98 and R100: SYS_CAP. The Booleans are the low 8 bits of each bitmap; bits 8 to 15 stay in the
raw fields. -/
def Obligations.SysCapDecodes : Prop :=
  (∀ (s : State) (a b c d : Byte), s.tlvReady 4 [a, b, c, d] →
    ∃ sysCaps enCaps : Vector Bool 8,
      exec (.sysCap 4) s = .next (s.withRecord 7 4 (.sysCap (a ++ b) (c ++ d) sysCaps enCaps))
      ∧ ∀ i : Fin 8, sysCaps[i] = b.getLsbD i ∧ enCaps[i] = d.getLsbD i)
  ∧ headerSelects 0x0E00 .sysCap
  ∧ raisesLengthErrors 7 4 4 fun l s => exec (.sysCap l) s

/-- 44_tlv_decoders_structured.md R103, with the record of R101: a management address whose layout fills its value. -/
def Obligations.MgmtAddrDecodes : Prop :=
  ∀ (s : State) (l : TlvLen) (n asub ifs n3 n2 n1 n0 m : Byte) (addr oid : List Byte),
    9 ≤ l → l ≤ 167 → s.tlvReady l (n :: asub :: addr ++ ifs :: n3 :: n2 :: n1 :: n0 :: m :: oid) →
    n.toNat = 1 + addr.length → m.toNat = oid.length → ifs.toNat ≤ 3 →
    (ifs = 0 → n3 = 0 ∧ n2 = 0 ∧ n1 = 0 ∧ n0 = 0) →
    exec (.mgmtAddr l) s = .next (s.withRecord 8 l (.mgmtAddr n asub addr
      (if asub = 1 then .dottedQuad else if asub = 2 then .colonHexV6 else .opaqueBytes)
      ifs (n3 ++ n2 ++ n1 ++ n0) m (decide (m ≠ 0)) oid))

/-- 44_tlv_decoders_structured.md R102, R104, R105 and 60_exceptions.md R121: the field-value errors of a management
address in the order of the checks, each with its offset. The OID that does not fit is R106's. -/
def Obligations.MgmtAddrFieldErrors : Prop :=
  (∀ (s : State) (l : TlvLen) (v : List Byte) (n : Byte), 9 ≤ l → l ≤ 167 → s.tlvReady l v → v[0]? = some n →
    let fieldError (d : BitVec 4) (pos : Nat) : StepResult :=
      .next (s.endedWith .invalidFieldValue d { tlvOffset := s.cursor, type := 8, len := l, pos := pos })
    (n = 0 → exec (.mgmtAddr l) s = fieldError 1 (s.cursor + 2))
    ∧ (n ≠ 0 → l.toNat < n.toNat + 7 → exec (.mgmtAddr l) s = fieldError 2 (s.cursor + 2))
    ∧ ∀ ifs n3 n2 n1 n0 m : Byte, n ≠ 0 → n.toNat + 7 ≤ l.toNat →
      (v.drop (n.toNat + 1)).take 6 = [ifs, n3, n2, n1, n0, m] →
      (3 < ifs.toNat → exec (.mgmtAddr l) s = fieldError 3 (s.cursor + 2 + (n.toNat + 1)))
      ∧ (ifs = 0 → ¬ (n3 = 0 ∧ n2 = 0 ∧ n1 = 0 ∧ n0 = 0) →
        exec (.mgmtAddr l) s = fieldError 4 (s.cursor + 2 + (n.toNat + 1)))
      ∧ (ifs.toNat ≤ 3 → (ifs = 0 → n3 = 0 ∧ n2 = 0 ∧ n1 = 0 ∧ n0 = 0) → l.toNat < n.toNat + 7 + m.toNat →
        exec (.mgmtAddr l) s = fieldError 5 (s.cursor + 2 + (n.toNat + 6))))
  ∧ headerSelects 0x1000 .mgmtAddr
  ∧ raisesLengthErrors 8 9 167 fun l s => exec (.mgmtAddr l) s

/-- 44_tlv_decoders_structured.md R107: bytes left after the OID. With `REJECT` (this hardware) they are a field error at
the first unused byte; with `IGNORE` they are skipped and the cursor still advances by the full `2 + l`. -/
def Obligations.MgmtAddrTrailingBytes : Prop :=
  ∀ (s : State) (l : TlvLen) (n asub ifs n3 n2 n1 n0 m : Byte) (addr oid extra : List Byte),
    9 ≤ l → l ≤ 167 → s.tlvReady l (n :: asub :: addr ++ ifs :: n3 :: n2 :: n1 :: n0 :: m :: oid ++ extra) →
    n.toNat = 1 + addr.length → m.toNat = oid.length → extra ≠ [] → ifs.toNat ≤ 3 →
    (ifs = 0 → n3 = 0 ∧ n2 = 0 ∧ n1 = 0 ∧ n0 = 0) →
    exec (.mgmtAddr l) s = .next (s.endedWith .invalidFieldValue 6
      { tlvOffset := s.cursor, type := 8, len := l, pos := s.cursor + 2 + (n.toNat + 7 + m.toNat) })
    ∧ ∀ p : Params, p.mgmtTrailing = .ignore → p.stopAtEnd = false →
      s.frame.readBytes s.cursor 2 = some (headerBytes 8 l) →
      blockStepWith p s = .next (s.withRecord 8 l (.mgmtAddr n asub addr
        (if asub = 1 then .dottedQuad else if asub = 2 then .colonHexV6 else .opaqueBytes)
        ifs (n3 ++ n2 ++ n1 ++ n0) m (decide (m ≠ 0)) oid))

/-- 44_tlv_decoders_structured.md R108: ORG_SPECIFIC. -/
def Obligations.OrgSpecificDecodes : Prop :=
  (∀ (s : State) (l : TlvLen) (o0 o1 o2 sub : Byte) (info : List Byte), s.tlvReady l (o0 :: o1 :: o2 :: sub :: info) →
    exec (.orgSpecific l) s = .next (s.withRecord 127 l (.orgSpecific [o0, o1, o2] sub info)))
  ∧ headerSelects 0xFE00 .orgSpecific
  ∧ raisesLengthErrors 127 4 511 fun l s => exec (.orgSpecific l) s

/-- 44_tlv_decoders_structured.md R109 and R110: the fallback keeps the value verbatim and never raises. -/
def Obligations.FallbackKeepsTheValueVerbatim : Prop :=
  (∀ (s : State) (t : TypeCode) (l : TlvLen) (v : List Byte), 9 ≤ t.toNat → t.toNat ≤ 126 → s.tlvReady l v →
    exec (.unimplemented t l) s = .next (s.withRecord t l (.unimplemented v)))
  ∧ ∀ (t : TypeCode) (l : TlvLen), 9 ≤ t.toNat → t.toNat ≤ 126 → decodeHeaderWord (encodeHeader t l) = .unimplemented t l

/-- 44_tlv_decoders_structured.md R112 and 42_field_primitives.md R82: on a value of its declared length a decoder returns a
record or raises one of the causes listed for its type; it never reads past the value and never truncates. -/
def Obligations.DecodersRaiseOnlyTheirOwnOutcomes : Prop :=
  ∀ (p : Params) (t : TypeCode) (l : TlvLen) (c : Nat) (v : List Byte), v.length = l.toNat →
    (∃ body, registry p t t l c v = .ok body)
    ∨ ∃ cause info, registry p t t l c v = .error (.raised cause info)
      ∧ ((cause.outcome = .invalidTlvLength ∧ t.isFallback = false
          ∧ (l < (lengthBounds t).1 ∨ (lengthBounds t).2 < l))
        ∨ (cause.outcome = .invalidFieldValue ∧ t = 8)
        ∨ (cause.outcome = .decodeError
          ∧ ((t = 2 ∧ utf8Valid (v.drop 1) = false) ∨ ((t = 4 ∨ t = 5 ∨ t = 6) ∧ utf8Valid v = false))))

/-- 30_encoding.md R62: a well-formed record's kind is its type code where the type is implemented, and 128 for the fallback,
which no type code can equal; `subtype_class` is the subtype up to 7, else RESERVED = 8. -/
def Obligations.KindAndSubtypeClassCodes : Prop :=
  (∀ r : Record, r.ok →
    (r.typeCode.isFallback = false → r.kind.toNat = r.typeCode.toNat)
    ∧ (r.typeCode.isFallback = true → r.kind = 128 ∧ ∀ t : TypeCode, r.kind.toNat ≠ t.toNat))
  ∧ ∀ sub : Byte, (subtypeClass sub).code = if sub.toNat ≤ 7 then sub.toNat else 8

/-- 42_field_primitives.md section 3: `Utf8Valid(s)` holds exactly when `s` splits into well-formed sequences, each one row
of the table. The table is the spec's own (D16, G1), not its source's. -/
def Obligations.Utf8ValidMeansSplitsIntoRows : Prop :=
  ∀ s : List Byte, utf8Valid s = true ↔ ∃ qs : List (List Byte), (∀ q ∈ qs, wellFormedSequence q = true) ∧ qs.flatten = s

/-- Validated bytes and their code points correspond one to one (92_eei_decisions.md D30): decoding and encoding are inverse
on the scalar values. The spec gives the byte ranges and not the arithmetic: the arithmetic that makes code points of bytes,
in `utf8Decode`, and bytes of code points, in `utf8EncodePoint`, is the model's presumption (PRESUMED, log entry 8). -/
def Obligations.Utf8BytesAndCodePointsCorrespond : Prop :=
  (∀ points : List Nat, (∀ n ∈ points, n < 0x110000 ∧ ¬ (0xD800 ≤ n ∧ n ≤ 0xDFFF)) →
    utf8Decode (points.flatMap utf8EncodePoint) = some points)
  ∧ ∀ (s : List Byte) (points : List Nat), utf8Decode s = some points →
    points.flatMap utf8EncodePoint = s ∧ ∀ n ∈ points, n < 0x110000 ∧ ¬ (0xD800 ≤ n ∧ n ≤ 0xDFFF)

/-- The hexadecimal renderings of 42_field_primitives.md section 5 lose nothing: equal texts come from equal bytes. -/
def Obligations.HexRenderingsDetermineTheBytes : Prop :=
  (∀ s t : List Byte, renderHexPlain s = renderHexPlain t → s = t)
  ∧ ∀ s t : List Byte, renderHexColon s = renderHexColon t → s = t

/-! ## Frames and the whole machine -/

/-- 20_memory.md R36, with 10_state.md section 3: no instruction writes FRAME or `frame_len`. Every byte of FRAME reads as
before, whether the instruction emits a record or ends the frame. -/
def Obligations.NoInstructionWritesFrame : Prop :=
  ∀ (i : Instr) (s s' : State), exec i s = .next s' →
    s'.frame = s.frame ∧ (∀ a, s'.frame.read a = s.frame.read a) ∧ s'.frameLen = s.frameLen ∧ s'.turns = s.turns

/-- 10_state.md R14: the codes of `phase`; it moves only as listed, for a block step and for each host operation; in IDLE
and DONE the block does nothing. -/
def Obligations.PhaseMovesOnlyAsListed : Prop :=
  (Phase.code .idle = 0 ∧ Phase.code .validate = 1 ∧ Phase.code .walk = 2 ∧ Phase.code .done = 3)
  ∧ ∀ s s' : State, step s = .next s' →
    (s.blockMoves = true → s.phase = .idle ∨ s.phase = .done → s' = s.afterTurn)
    ∧ (s.blockMoves = true →
      (s.phase, s'.phase) ∈ ([(.idle, .idle), (.done, .done), (.validate, .walk), (.validate, .done), (.walk, .walk),
        (.walk, .done)] : List (Phase × Phase)))
    ∧ ∀ (op : HostOp) (rest : List Turn), s.turns = .host op :: rest →
      match op with
      | .reset => s'.phase = .idle
      | .start _ => (s.phase = .idle ∨ s.phase = .done) ∧ s'.phase = .validate
      | .writeFrame _ _ => s'.phase = s.phase
      | .read _ => s'.phase = s.phase
      | .takeFrame => s'.phase = s.phase

/-- 60_exceptions.md R117: an error ending is precise. It emits no record, keeps the cursor at the failing header, and
`out` and `rec_count` as they were before the step. -/
def Obligations.ErrorEndingsArePrecise : Prop :=
  ∀ s s' : State, s.blockMoves = true → s.outcome = .none → step s = .next s' → s'.outcome.isError = true →
    s'.phase = .done ∧ s'.out = s.out ∧ s'.recCount = s.recCount ∧ s'.cursor = s.cursor
    ∧ s'.frameLen = s.frameLen ∧ s'.frame = s.frame ∧ (s.phase = .walk → s'.errTlvOffset = s'.cursor)

/-- 41_header_and_sequencer.md R75: a WALK step ends the frame with cursor and records as they were, or emits one record of
the header at the cursor and moves the cursor past it, never past the frame's end. -/
def Obligations.WalkEmitsOneRecordOrEnds : Prop :=
  ∀ s s' : State, s.blockMoves = true → s.phase = .walk → step s = .next s' →
    (s'.phase = .done ∧ s'.cursor = s.cursor ∧ s'.out = s.out ∧ s'.recCount = s.recCount)
    ∨ (s'.phase = .walk ∧ s'.outcome = s.outcome ∧ s'.errDetail = s.errDetail
      ∧ ∃ r : Record, s'.out = s.out ++ [r] ∧ s'.recCount = s.recCount + 1 ∧ r.tlvOffset = s.cursor
        ∧ s.frame.readBytes s.cursor 2 = some (headerBytes r.typeCode r.length)
        ∧ s'.cursor = s.cursor + 2 + r.length.toNat ∧ s'.cursor ≤ s.frameLen)

/-- The state after reset meets every invariant. -/
def Obligations.ResetMeetsTheInvariants : Prop :=
  CursorInv State.reset ∧ StatusInv State.reset ∧ EndingInv State.reset ∧ RecordsInv State.reset
  ∧ RunLoaded State.reset ∧ Memory.wf State.reset.frame = true

/-- 10_state.md R22: the cursor invariants hold after every step, of the block or of the host. -/
def Obligations.EveryStepKeepsTheCursorInvariants : Prop :=
  ∀ s s' : State, CursorInv s → step s = .next s' → CursorInv s'

/-- 60_exceptions.md R122, 10_state.md R19 and R20: after every step the status registers are a row of R114 and the
error registers hold what the table of R122 says for it. -/
def Obligations.EveryStepKeepsTheErrorTable : Prop :=
  ∀ s s' : State, StatusInv s → step s = .next s' → StatusInv s'

/-- 41_header_and_sequencer.md R77 and 60_exceptions.md R123, on this hardware: a run that ended `OK` consumed its payload
exactly, and a frame that is not LLDP left nothing. -/
def Obligations.EveryStepKeepsTheEndingInvariant : Prop :=
  ∀ s s' : State, CursorInv s → StatusInv s → EndingInv s → step s = .next s' → EndingInv s'

/-- 30_encoding.md section 4 and 10_state.md section 3: after every step each record of `out` agrees with its header and its
kind's rule (its text is well-formed UTF-8, its lengths add up), and the records stand back to back in wire order. -/
def Obligations.EveryStepKeepsTheRecordsWellFormed : Prop :=
  ∀ s s' : State, CursorInv s → RecordsInv s → step s = .next s' → RecordsInv s'

/-- The model's own form of FRAME (log entry 3) is kept by every step. -/
def Obligations.EveryStepKeepsFrameCanonical : Prop :=
  ∀ s s' : State, Memory.wf s.frame = true → step s = .next s' → Memory.wf s'.frame = true

/-- 10_state.md section 3 and 00_scope.md section 3, at any parameters: no step makes `frame_len` exceed `MAX_FRAME_LEN`. -/
def Obligations.EveryStepKeepsFrameLenInBounds : Prop :=
  ∀ (p : Params) (s s' : State), s.frameLen ≤ p.maxFrameLen → stepWith p s = .next s' → s'.frameLen ≤ p.maxFrameLen

/-- 10_state.md R21 and section 2: with the invariants, no register of width `CURSOR_W` overflows it, `CURSOR_W` is the
smallest width that holds `MAX_FRAME_LEN`, and `rec_count` is at most half the payload. -/
def Obligations.CursorWidthRegistersNeverOverflow : Prop :=
  ∀ (p : Params) (s : State), s.frameLen ≤ p.maxFrameLen → CursorInv s → StatusInv s →
    (p.maxFrameLen < 2 ^ p.cursorW ∧ ∀ w, p.maxFrameLen < 2 ^ w → p.cursorW ≤ w)
    ∧ s.frameLen < 2 ^ p.cursorW ∧ s.cursor < 2 ^ p.cursorW ∧ s.recCount < 2 ^ p.cursorW
    ∧ s.errTlvOffset < 2 ^ p.cursorW ∧ s.errAvail < 2 ^ p.cursorW ∧ s.errPos < 2 ^ p.cursorW
    ∧ s.recCount ≤ (s.frameLen - 14) / 2

/-- 20_memory.md section 3 (R40): where the host wrote the whole frame, every read of the block meets its precondition, so
the block never stops: its step answers a next state. -/
def Obligations.BlockNeverStopsOnALoadedFrame : Prop :=
  ∀ s : State, CursorInv s → RunLoaded s → s.blockMoves = true →
    ∃ s', step s = .next s'

/-- 41_header_and_sequencer.md R78: every run over a frame the host wrote reaches DONE within one VALIDATE step and
`⌊(frame_len - 14)/2⌋ + 1` WALK steps, and each WALK step ends the frame or moves the cursor by at least 2. -/
def Obligations.EveryRunReachesDone : Prop :=
  ∀ s : State, CursorInv s → Loaded s → s.turns = [] → s.phase = .validate ∨ s.phase = .walk →
    (∃ k s', k ≤ runBound s.frameLen ∧ stepRun k s = .next s' ∧ s'.phase = .done ∧ s'.outcome ≠ .none)
    ∧ (s.phase = .walk → ∃ s', step s = .next s' ∧ (s'.phase = .done ∨ s.cursor + 2 ≤ s'.cursor))
    ∧ (s.phase = .validate → ∃ s', step s = .next s' ∧ (s'.phase = .done ∨ s'.phase = .walk))

/-- 70_reset_and_hazards.md R147 and 10_state.md section 3 (R27): a run depends only on `FRAME[0..n-1]`, `n` and the
parameters. Two STARTs over frames that agree below `n`, from any states, agree in every register after every step. -/
def Obligations.ARunDependsOnlyOnItsFrame : Prop :=
  ∀ (n k : Nat) (s t s0 t0 s' : State), s.turns = [] → t.turns = [] →
    (∀ a, a < n → s.frame.read a = t.frame.read a) →
    hostOp Config.params (.start n) s = .next s0 → hostOp Config.params (.start n) t = .next t0 →
    stepRun k s0 = .next s' → ∃ t', stepRun k t0 = .next t' ∧ s'.sameRegisters t'

/-- After every step a run in progress is over a loaded frame: nothing changes FRAME or `frame_len` during a run
(20_memory.md R35), and START is refused on a frame the host has not written whole (70_reset_and_hazards.md R139; that this is
checked at START is the model's own choice, DESIGN CHOICE, log entry 3). -/
def Obligations.EveryStepKeepsTheRunLoaded : Prop :=
  ∀ s s' : State, RunLoaded s → step s = .next s' → RunLoaded s'
end

