-- ==== Sys2Proof/Laws/Decode.lean ====
section
/-! SUPPORT. The header codec and the envelope on the bytes they are written to. -/

namespace Sys2Proof

theorem decodeHeader_typeCode (h : BitVec 16) : (decodeHeader h).1.toNat = h.toNat / 512 := by
  have := h.isLt
  simp [decodeHeader, BitVec.toNat_setWidth, BitVec.toNat_ushiftRight, Nat.shiftRight_eq_div_pow]
  omega

theorem decodeHeader_length (h : BitVec 16) : (decodeHeader h).2.toNat = h.toNat % 512 := by
  have := h.isLt
  have hm : h.toNat % 512 &&& 511 = h.toNat % 512 % 512 := Nat.and_two_pow_sub_one_eq_mod (h.toNat % 512) 9
  simp [decodeHeader, BitVec.toNat_setWidth, BitVec.toNat_and, hm]

theorem encodeHeader_toNat (t : TypeCode) (l : TlvLen) : (encodeHeader t l).toNat = t.toNat * 512 + l.toNat := by
  have ht := t.isLt
  have hl := l.isLt
  have hor : t.toNat <<< 9 ||| l.toNat = t.toNat * 512 + l.toNat := by
    rw [← Nat.shiftLeft_add_eq_or_of_lt hl, Nat.shiftLeft_eq]
  have e1 : t.toNat % 65536 = t.toNat := by omega
  have e2 : l.toNat % 65536 = l.toNat := by omega
  have e3 : t.toNat <<< 9 % 65536 = t.toNat <<< 9 := by rw [Nat.shiftLeft_eq]; omega
  simp [encodeHeader, BitVec.toNat_or, BitVec.toNat_shiftLeft, BitVec.toNat_setWidth, e1, e2, e3, hor]

theorem joinBe16_toNat (b0 b1 : Byte) : (joinBe16 b0 b1).toNat = b0.toNat * 256 + b1.toNat := by
  have h1 := b1.isLt
  rw [joinBe16, BitVec.toNat_append, ← Nat.shiftLeft_add_eq_or_of_lt h1, Nat.shiftLeft_eq]

/-- The two bytes of a 16-bit word, joined again, are the word. -/
theorem joinBe16_bytesOfNat (h : BitVec 16) :
    ∃ b0 b1, bytesOfNat 2 h.toNat = [b0, b1] ∧ joinBe16 b0 b1 = h := by
  refine ⟨_, _, rfl, ?_⟩
  have := h.isLt
  apply BitVec.eq_of_toNat_eq
  rw [joinBe16_toNat]
  simp
  omega

theorem decodeHeader_encodeHeader (t : TypeCode) (l : TlvLen) : decodeHeader (encodeHeader t l) = (t, l) := by
  have ht := t.isLt
  have hl := l.isLt
  ext1
  · apply BitVec.eq_of_toNat_eq
    rw [decodeHeader_typeCode, encodeHeader_toNat]
    show _ = t.toNat
    omega
  · apply BitVec.eq_of_toNat_eq
    rw [decodeHeader_length, encodeHeader_toNat]
    show _ = l.toNat
    omega

/-- The instruction of a header word carries the word's fields and is well formed. -/
theorem decodeHeaderWord_header? (h : BitVec 16) :
    (decodeHeaderWord h).header? = some (decodeHeader h) ∧ (decodeHeaderWord h).wellFormed = true := by
  unfold decodeHeaderWord instrOfHeader
  have ht := (decodeHeader h).1.isLt
  split
  any_goals
    rename_i e
    refine ⟨?_, rfl⟩
    simp only [Instr.header?]
    congr 1
    ext1
    · apply BitVec.eq_of_toNat_eq
      rw [e]
      rfl
    · rfl
  refine ⟨rfl, ?_⟩
  simp only [Instr.wellFormed, TypeCode.isFallback, Bool.and_eq_true, decide_eq_true_eq]
  simp only [imp_false] at *
  omega

/-- A header written back is the two bytes it was read from. -/
theorem headerBytes_decodeHeader (b0 b1 : Byte) :
    headerBytes (decodeHeader (joinBe16 b0 b1)).1 (decodeHeader (joinBe16 b0 b1)).2 = [b0, b1] := by
  have h0 := b0.isLt
  have h1 := b1.isLt
  have hw : (encodeHeader (decodeHeader (joinBe16 b0 b1)).1 (decodeHeader (joinBe16 b0 b1)).2).toNat
      = b0.toNat * 256 + b1.toNat := by
    rw [encodeHeader_toNat, decodeHeader_typeCode, decodeHeader_length, joinBe16_toNat]
    omega
  simp only [headerBytes, hw, bytesOfNat]
  congr 1
  · apply BitVec.eq_of_toNat_eq
    simp
    omega
  · congr 1
    apply BitVec.eq_of_toNat_eq
    simp
    omega

end Sys2Proof
end

