-- ==== Sys2Proof/Laws/Memory.lean ====
section
/-! SUPPORT. FRAME as memory: reading after writing, the canonical form, and block reads. -/

namespace Sys2Proof.Machine

theorem Memory.read_write_same (m : Memory) (a : Nat) (b : Byte) : Memory.read (Memory.write m a b) a = some b := by
  induction m with
  | nil => simp [Memory.write, Memory.read]
  | cons e m ih =>
    obtain ⟨k, c⟩ := e
    simp only [Memory.write]
    split
    · simp [Memory.read]
    · split
      · simp [Memory.read]
      · have : k ≠ a := by omega
        simp [Memory.read, this, ih]

theorem Memory.read_write_other (m : Memory) {a a' : Nat} (b : Byte) (h : a ≠ a') :
    Memory.read (Memory.write m a b) a' = Memory.read m a' := by
  induction m with
  | nil => simp [Memory.write, Memory.read, h]
  | cons e m ih =>
    obtain ⟨k, c⟩ := e
    simp only [Memory.write]
    split
    · simp [Memory.read, h]
    · split
      · next hk => subst hk; simp [Memory.read, h]
      · by_cases hk : k = a'
        · simp [Memory.read, hk]
        · simp [Memory.read, hk, ih]

/-- Every key of a canonical memory lies above its first one. -/
theorem Memory.wf_cons {k : Nat} {b : Byte} {m : Memory} :
    Memory.wf ((k, b) :: m) = true ↔ (∀ e ∈ m.head?, k < e.1) ∧ Memory.wf m = true := by
  cases m with
  | nil => simp [Memory.wf]
  | cons e m => obtain ⟨k', b'⟩ := e; simp [Memory.wf]

theorem Memory.head_write (m : Memory) (a : Nat) (b : Byte) {k : Nat} (hk : k < a) (h : ∀ e ∈ m.head?, k < e.1) :
    ∀ e ∈ (Memory.write m a b).head?, k < e.1 := by
  cases m with
  | nil => simpa [Memory.write] using hk
  | cons e m =>
    obtain ⟨k', b'⟩ := e
    simp only [List.head?_cons, Option.mem_def, Option.some.injEq, forall_eq'] at h
    simp only [Memory.write]
    split
    · simpa using hk
    · split
      · simpa using hk
      · simpa using h

/-- A write keeps the canonical form. -/
theorem Memory.wf_write {m : Memory} (a : Nat) (b : Byte) (h : Memory.wf m = true) :
    Memory.wf (Memory.write m a b) = true := by
  induction m with
  | nil => simp [Memory.write, Memory.wf]
  | cons e m ih =>
    obtain ⟨k, c⟩ := e
    obtain ⟨hk, hm⟩ := Memory.wf_cons.1 h
    simp only [Memory.write]
    split
    · exact Memory.wf_cons.2 ⟨by simpa using ‹a < k›, h⟩
    · split
      · next hak => subst hak; exact Memory.wf_cons.2 ⟨hk, hm⟩
      · exact Memory.wf_cons.2 ⟨Memory.head_write m a b (by omega) hk, ih hm⟩

theorem Memory.wf_writeBytes {m : Memory} (a : Nat) (bs : List Byte) (h : Memory.wf m = true) :
    Memory.wf (Memory.writeBytes m a bs) = true := by
  induction bs generalizing a with
  | nil => exact h
  | cons b bs ih => exact Memory.wf_write a b (ih (a + 1))

/-- What a block write leaves at an offset: the written byte inside the block, the old byte outside. -/
theorem Memory.read_writeBytes (m : Memory) (a : Nat) (bs : List Byte) (x : Nat) :
    Memory.read (Memory.writeBytes m a bs) x
      = if h : a ≤ x ∧ x < a + bs.length then some (bs[x - a]'(by omega)) else Memory.read m x := by
  induction bs generalizing a with
  | nil =>
    have : ¬ (a ≤ x ∧ x < a + ([] : List Byte).length) := by simp
    simp [Memory.writeBytes]
  | cons b bs ih =>
    simp only [Memory.writeBytes]
    by_cases hx : a = x
    · subst hx; simp [Memory.read_write_same]
    · rw [Memory.read_write_other _ _ hx, ih]
      by_cases h : a + 1 ≤ x ∧ x < a + 1 + bs.length
      · have h' : a ≤ x ∧ x < a + (b :: bs).length := by simp; omega
        rw [dif_pos h, dif_pos h']
        have : x - a = (x - (a + 1)) + 1 := by omega
        simp [this]
      · have h' : ¬ (a ≤ x ∧ x < a + (b :: bs).length) := by simp; omega
        rw [dif_neg h, dif_neg h']

/-- A block read gives as many bytes as were asked for. -/
theorem Memory.length_readBytes {m : Memory} {a n : Nat} {bs : List Byte}
    (h : Memory.readBytes m a n = some bs) : bs.length = n := by
  induction n generalizing a bs with
  | zero => simp [Memory.readBytes] at h; simp [← h]
  | succ n ih =>
    simp only [Memory.readBytes] at h
    split at h
    · next hbs => cases h; simp [ih hbs]
    · cases h
    · cases h

/-- The bytes of a block read are the bytes at its offsets. -/
theorem Memory.getElem?_readBytes {m : Memory} {a n : Nat} {bs : List Byte}
    (h : Memory.readBytes m a n = some bs) {i : Nat} (hi : i < n) : bs[i]? = Memory.read m (a + i) := by
  induction n generalizing a bs i with
  | zero => omega
  | succ n ih =>
    simp only [Memory.readBytes] at h
    split at h
    · next hb hbs =>
      cases h
      cases i with
      | zero => simp [hb]
      | succ i =>
        have := ih hbs (i := i) (by omega)
        simpa [Nat.add_assoc, Nat.add_comm 1 i] using this
    · cases h
    · cases h

/-- A block read depends only on the bytes at its offsets. -/
theorem Memory.readBytes_congr {m m' : Memory} {a n : Nat}
    (h : ∀ i < n, Memory.read m (a + i) = Memory.read m' (a + i)) :
    Memory.readBytes m a n = Memory.readBytes m' a n := by
  induction n generalizing a with
  | zero => rfl
  | succ n ih =>
    have h0 := h 0 (by omega)
    have ht := ih (a := a + 1) fun i hi => by
      have := h (i + 1) (by omega)
      simpa [Nat.add_assoc, Nat.add_comm 1 i] using this
    simp only [Nat.add_zero] at h0
    simp [Memory.readBytes, h0, ht]

/-- Where every byte was written, a block read gives bytes. -/
theorem Memory.readBytes_isSome {m : Memory} {a n : Nat}
    (h : ∀ i < n, (Memory.read m (a + i)).isSome) : ∃ bs, Memory.readBytes m a n = some bs := by
  induction n generalizing a with
  | zero => exact ⟨[], rfl⟩
  | succ n ih =>
    obtain ⟨bs, hbs⟩ := ih (a := a + 1) fun i hi => by
      have := h (i + 1) (by omega)
      simpa [Nat.add_assoc, Nat.add_comm 1 i] using this
    obtain ⟨b, hb⟩ := Option.isSome_iff_exists.1 (h 0 (by omega))
    simp only [Nat.add_zero] at hb
    exact ⟨b :: bs, by simp [Memory.readBytes, hb, hbs]⟩

/-- FRAME is written below `n` exactly when every offset below `n` holds a byte. -/
theorem Memory.written_iff {m : Memory} {n : Nat} : m.written n = true ↔ ∀ a < n, (Memory.read m a).isSome := by
  unfold Memory.written
  constructor
  · intro h a ha
    obtain ⟨bs, hbs⟩ := Option.isSome_iff_exists.1 h
    have hlen := Memory.length_readBytes hbs
    have := Memory.getElem?_readBytes hbs ha
    rw [Nat.zero_add] at this
    rw [← this, List.getElem?_eq_getElem (by omega)]
    rfl
  · intro h
    obtain ⟨bs, hbs⟩ := Memory.readBytes_isSome (m := m) (a := 0) (n := n) fun i hi => by rw [Nat.zero_add]; exact h i hi
    rw [hbs]
    rfl

/-- A block read splits in two. -/
theorem Memory.readBytes_add {m : Memory} {a n k : Nat} {bs : List Byte}
    (h : Memory.readBytes m a (n + k) = some bs) :
    Memory.readBytes m a n = some (bs.take n) ∧ Memory.readBytes m (a + n) k = some (bs.drop n) := by
  induction n generalizing a bs with
  | zero => simpa [Memory.readBytes] using h
  | succ n ih =>
    rw [show n + 1 + k = (n + k) + 1 by omega] at h
    simp only [Memory.readBytes] at h
    split at h
    · next hb hbs =>
      cases h
      obtain ⟨h1, h2⟩ := ih hbs
      refine ⟨by simp [Memory.readBytes, hb, h1], ?_⟩
      simpa [Nat.add_assoc, Nat.add_comm 1 n] using h2
    · cases h
    · cases h

end Sys2Proof.Machine
end

