-- ==== Sys2Proof/Laws/Ops.lean ====
section
/-! SUPPORT. The read primitives and the decoders' checks: when each answers, and what. -/

namespace Sys2Proof.Machine

@[simp] theorem ok_bind {α β : Type} (a : α) (f : α → Except Halt β) : (Except.ok a >>= f) = f a := rfl

@[simp] theorem error_bind {α β : Type} (h : Halt) (f : α → Except Halt β) :
    ((Except.error h : Except Halt α) >>= f) = .error h := rfl

theorem bind_eq_ok {α β : Type} {x : Except Halt α} {f : α → Except Halt β} {b : β} :
    (x >>= f) = .ok b ↔ ∃ a, x = .ok a ∧ f a = .ok b := by
  cases x <;> simp

theorem bind_eq_error {α β : Type} {x : Except Halt α} {f : α → Except Halt β} {h : Halt} :
    (x >>= f) = .error h ↔ x = .error h ∨ ∃ a, x = .ok a ∧ f a = .error h := by
  cases x <;> simp

theorem check_eq_ok {ok : Prop} [Decidable ok] {h : Halt} {u : Unit} : check ok h = .ok u ↔ ok := by
  unfold check; split <;> simp_all

theorem check_eq_error {ok : Prop} [Decidable ok] {h h' : Halt} : check ok h = .error h' ↔ ¬ ok ∧ h = h' := by
  unfold check; split <;> simp_all

theorem check_pos {ok : Prop} [Decidable ok] {h : Halt} (hk : ok) : check ok h = .ok () := if_pos hk

theorem check_neg {ok : Prop} [Decidable ok] {h : Halt} (hk : ¬ ok) : check ok h = .error h := if_neg hk

theorem byteAt_eq_ok {v : List Byte} {i : Nat} {b : Byte} : byteAt v i = .ok b ↔ v[i]? = some b := by
  unfold byteAt; split <;> simp_all

theorem byteAt_eq_error {v : List Byte} {i : Nat} {h : Halt} :
    byteAt v i = .error h ↔ v.length ≤ i ∧ h = .refused .readPastValue := by
  unfold byteAt
  split
  · next h' => simp; intro hl; rw [List.getElem?_eq_none hl] at h'; cases h'
  · next h' => simp [List.getElem?_eq_none_iff.1 h', eq_comm]

theorem byteAt_of_lt {v : List Byte} {i : Nat} (h : i < v.length) : byteAt v i = .ok v[i] :=
  byteAt_eq_ok.2 (List.getElem?_eq_getElem h)

theorem be16At_of_lt {v : List Byte} {i : Nat} (h : i + 1 < v.length) :
    be16At v i = .ok (joinBe16 (v[i]'(by omega)) v[i + 1]) := by
  rw [be16At, byteAt_of_lt (by omega), ok_bind, byteAt_of_lt h, ok_bind]

theorem be32At_of_lt {v : List Byte} {i : Nat} (h : i + 3 < v.length) :
    be32At v i = .ok (joinBe32 (v[i]'(by omega)) (v[i + 1]'(by omega)) (v[i + 2]'(by omega)) v[i + 3]) := by
  rw [be32At, byteAt_of_lt (by omega), ok_bind, byteAt_of_lt (by omega), ok_bind, byteAt_of_lt (by omega), ok_bind,
    byteAt_of_lt h, ok_bind]

theorem subBytes_eq_ok {v bs : List Byte} {i n : Nat} :
    subBytes v i n = .ok bs ↔ i + n ≤ v.length ∧ (v.drop i).take n = bs := by
  unfold subBytes
  split
  · simp; omega
  · simp; omega

theorem subBytes_of_le {v : List Byte} {i n : Nat} (h : i + n ≤ v.length) :
    subBytes v i n = .ok ((v.drop i).take n) := subBytes_eq_ok.2 ⟨h, rfl⟩

theorem subBytes_eq_error {v : List Byte} {i n : Nat} {h : Halt} :
    subBytes v i n = .error h ↔ v.length < i + n ∧ h = .refused .readPastValue := by
  unfold subBytes
  split <;> simp_all [eq_comm]

/-- `Bytes(addr, n)` answers exactly when its precondition holds and every byte was written. -/
theorem State.bytes_eq_ok {s : State} {addr n : Nat} {bs : List Byte} :
    s.bytes addr n = .ok bs ↔ addr + n ≤ s.frameLen ∧ s.frame.readBytes addr n = some bs := by
  unfold State.bytes
  split
  · simp; omega
  · have : addr + n ≤ s.frameLen := by omega
    split <;> simp_all

/-- `Bytes(addr, n)` never raises: it answers or refuses. -/
theorem State.bytes_eq_error {s : State} {addr n : Nat} {h : Halt} (hb : s.bytes addr n = .error h) :
    ∃ r, h = .refused r := by
  unfold State.bytes at hb
  split at hb
  · cases hb; exact ⟨_, rfl⟩
  · split at hb <;> cases hb
    exact ⟨_, rfl⟩

/-- `MemRead(addr, 2)` is the two bytes joined big-endian. -/
theorem State.memRead_two {s : State} {addr : Nat} {b0 b1 : Byte} (hlen : addr + 2 ≤ s.frameLen)
    (hb : s.frame.readBytes addr 2 = some [b0, b1]) : s.memRead addr 2 = .ok (joinBe16 b0 b1) := by
  have : s.bytes addr 2 = .ok [b0, b1] := State.bytes_eq_ok.2 ⟨hlen, hb⟩
  simp only [State.memRead, this, ok_bind, Except.ok.injEq]
  apply BitVec.eq_of_toNat_eq
  have h0 := b0.isLt
  have h1 := b1.isLt
  simp only [beNat, List.foldl, joinBe16, BitVec.toNat_ofNat, BitVec.toNat_append]
  rw [← Nat.shiftLeft_add_eq_or_of_lt h1, Nat.shiftLeft_eq]
  omega

theorem State.memRead_eq_error {s : State} {addr n : Nat} {h : Halt} (hm : s.memRead addr n = .error h) :
    ∃ r, h = .refused r := by
  simp only [State.memRead, bind_eq_error] at hm
  rcases hm with hm | ⟨_, _, hm⟩
  · exact State.bytes_eq_error hm
  · cases hm

theorem State.memRead_eq_ok {s : State} {addr n : Nat} {w : BitVec (8 * n)} :
    s.memRead addr n = .ok w ↔ ∃ bs, addr + n ≤ s.frameLen ∧ s.frame.readBytes addr n = some bs
      ∧ BitVec.ofNat (8 * n) (beNat bs) = w := by
  simp only [State.memRead, bind_eq_ok, State.bytes_eq_ok, Except.ok.injEq, and_assoc]

/-- `BoundsCheck` passes exactly within the bounds. -/
theorem boundsCheck_eq_ok {t : TypeCode} {l : TlvLen} {c : Nat} {u : Unit} :
    boundsCheck t l c = .ok u ↔ (lengthBounds t).1 ≤ l ∧ l ≤ (lengthBounds t).2 := by
  simp [boundsCheck, bind_eq_ok, check_eq_ok]

/-- What `BoundsCheck` raises: below the lower bound, or else above the upper one (42_field_primitives.md R80). -/
theorem boundsCheck_eq_error {t : TypeCode} {l : TlvLen} {c : Nat} {h : Halt} :
    boundsCheck t l c = .error h ↔
      (l < (lengthBounds t).1 ∧ h = .raised .belowMin (lengthInfo t l c))
      ∨ ((lengthBounds t).1 ≤ l ∧ (lengthBounds t).2 < l ∧ h = .raised .aboveMax (lengthInfo t l c)) := by
  simp only [boundsCheck, bind_eq_error, check_eq_error, check_eq_ok, BitVec.not_le, exists_const, eq_comm (b := h)]

theorem checkText_eq_ok {s : List Byte} {pos : Nat} {t : TypeCode} {l : TlvLen} {c : Nat} {u : Unit} :
    checkText s pos t l c = .ok u ↔ utf8Valid s = true := check_eq_ok

theorem checkText_eq_error {s : List Byte} {pos : Nat} {t : TypeCode} {l : TlvLen} {c : Nat} {h : Halt} :
    checkText s pos t l c = .error h ↔ utf8Valid s = false ∧ .raised .utf8Invalid (fieldInfo t l c pos) = h := by
  simp [checkText, check_eq_error]

theorem subtypeClass_code (s : Byte) : (subtypeClass s).code = min s.toNat 8 := by
  unfold subtypeClass
  split <;> simp [SubtypeClass.code] <;> omega

theorem capabilityBits_getElem (w : BitVec 16) (i : Nat) (h : i < 8) : (capabilityBits w)[i] = w.getLsbD i := by
  simp [capabilityBits]

end Sys2Proof.Machine
end

