-- ==== Sys2Proof/Laws/Decoders.lean ====
section
/-! SUPPORT. What the decoders of the registry can answer, once: every error they raise with its information, and that a
record they return is well formed. -/

namespace Sys2Proof.Machine

/-- Everything a decoder of type `t` can raise on a value `v` of length `l` whose header is at `c`
(42_field_primitives.md R80, R84; 44_tlv_decoders_structured.md R101 to R107, R112). -/
def DecoderRaises (t : TypeCode) (l : TlvLen) (c : Nat) (v : List Byte) (k : Cause) (info : ErrInfo) : Prop :=
  (t.isFallback = false ∧ info = lengthInfo t l c
    ∧ ((k = .belowMin ∧ l < (lengthBounds t).1) ∨ (k = .aboveMax ∧ (lengthBounds t).2 < l)))
  ∨ (k.outcome = .invalidFieldValue ∧ t = 8 ∧ ∃ pos, info = fieldInfo t l c pos ∧ c + 2 ≤ pos ∧ pos < c + 2 + l.toNat)
  ∨ (k = .utf8Invalid
    ∧ ((t = 2 ∧ info = fieldInfo t l c (c + 3) ∧ 1 ≤ l.toNat ∧ utf8Valid (v.drop 1) = false)
      ∨ ((t = 4 ∨ t = 5 ∨ t = 6) ∧ info = fieldInfo t l c (c + 2) ∧ utf8Valid v = false)))

/-- A decoder's result: a record, or one of the errors above. It never reads outside its value. -/
def DecoderAnswers (t : TypeCode) (l : TlvLen) (c : Nat) (v : List Byte) (r : Except Halt RecordBody) : Prop :=
  (∃ body, r = .ok body) ∨ ∃ k info, r = .error (.raised k info) ∧ DecoderRaises t l c v k info

/-- What `BoundsCheck` raises, with its information. -/
theorem boundsCheck_raises {t : TypeCode} {l : TlvLen} {c : Nat} {h : Halt} (e : boundsCheck t l c = .error h) :
    ∃ k, h = .raised k (lengthInfo t l c)
      ∧ ((k = .belowMin ∧ l < (lengthBounds t).1) ∨ (k = .aboveMax ∧ (lengthBounds t).2 < l)) := by
  rcases boundsCheck_eq_error.1 e with ⟨h1, rfl⟩ | ⟨_, h1, rfl⟩
  · exact ⟨_, rfl, .inl ⟨rfl, h1⟩⟩
  · exact ⟨_, rfl, .inr ⟨rfl, h1⟩⟩

/-- The fallback has no bounds of its own: every 9-bit length passes. -/
theorem lengthBounds_fallback {t : TypeCode} (h : t.isFallback = true) : lengthBounds t = (0, 511) := by
  simp only [TypeCode.isFallback, Bool.and_eq_true, decide_eq_true_eq] at h
  unfold lengthBounds
  split <;> first | rfl | omega

/-- A type code is one of the ten of the registry, or the fallback decodes it. -/
theorem registry_cases (p : Params) (t : TypeCode) :
    (t = 0 ∨ t = 1 ∨ t = 2 ∨ t = 3 ∨ t = 4 ∨ t = 5 ∨ t = 6 ∨ t = 7 ∨ t = 8 ∨ t = 127)
    ∨ (t.isFallback = true ∧ registry p t = decodeFallback) := by
  by_cases h : t.isFallback = true
  · refine .inr ⟨h, ?_⟩
    simp only [TypeCode.isFallback, Bool.and_eq_true, decide_eq_true_eq] at h
    unfold registry
    split <;> first | rfl | omega
  · refine .inl ?_
    simp only [TypeCode.isFallback, Bool.and_eq_true, decide_eq_true_eq] at h
    have ht := t.isLt
    have key : t.toNat ≤ 8 ∨ t.toNat = 127 := by omega
    simp only [← BitVec.toNat_inj]
    simp
    omega

/-- A decoder that calls `BoundsCheck` first answers if it does so within the bounds. -/
theorem answers_of_boundsCheck {dec : Decoder} {t : TypeCode} {l : TlvLen} {c : Nat} {v : List Byte}
    (ht : t.isFallback = false) (he : ∀ h, boundsCheck t l c = .error h → dec t l c v = .error h)
    (hk : boundsCheck t l c = .ok () → (lengthBounds t).1.toNat ≤ l.toNat → DecoderAnswers t l c v (dec t l c v)) :
    DecoderAnswers t l c v (dec t l c v) := by
  cases hb : boundsCheck t l c with
  | error h =>
    obtain ⟨k, rfl, h⟩ := boundsCheck_raises hb
    exact .inr ⟨k, _, he _ hb, .inl ⟨ht, rfl, h⟩⟩
  | ok u => exact hk hb (boundsCheck_eq_ok.1 hb).1

/-- The text types: the value checked as UTF-8, after the bounds. -/
theorem text_answers {t : TypeCode} {l : TlvLen} {c : Nat} {v : List Byte} (mk : List Byte → RecordBody)
    (ht : t = 4 ∨ t = 5 ∨ t = 6) :
    DecoderAnswers t l c v (checkText v (c + 2) t l c >>= fun _ => .ok (mk v)) := by
  cases hu : utf8Valid v
  · exact .inr ⟨.utf8Invalid, fieldInfo t l c (c + 2), by simp [checkText, check, hu],
      .inr (.inr ⟨rfl, .inr ⟨ht, rfl, hu⟩⟩)⟩
  · exact .inl ⟨mk v, by simp [checkText, check, hu]⟩

/-- A check that raises a field-value error inside the value, and what follows it. -/
theorem answers_of_check {ok : Prop} [Decidable ok] {k : Cause} {l : TlvLen} {c pos : Nat} {v : List Byte}
    {f : Unit → Except Halt RecordBody} (hk : k.outcome = .invalidFieldValue)
    (hpos : ¬ ok → c + 2 ≤ pos ∧ pos < c + 2 + l.toNat) (hf : ok → DecoderAnswers 8 l c v (f ())) :
    DecoderAnswers 8 l c v (check ok (.raised k (fieldInfo 8 l c pos)) >>= f) := by
  by_cases h : ok
  · rw [check_pos h, ok_bind]
    exact hf h
  · rw [check_neg h]
    exact .inr ⟨k, _, rfl, .inr (.inl ⟨hk, rfl, pos, rfl, hpos h⟩)⟩

theorem decodeMgmtAddr_answers (p : Params) (l : TlvLen) (c : Nat) (v : List Byte) (hl : v.length = l.toNat) :
    DecoderAnswers 8 l c v (decodeMgmtAddr p 8 l c v) := by
  refine answers_of_boundsCheck rfl (fun h e => by simp only [decodeMgmtAddr, e, error_bind]) fun e h9 => ?_
  have h9 : 9 ≤ l.toNat := h9
  unfold decodeMgmtAddr
  simp only [e, ok_bind]
  rw [byteAt_of_lt (show 0 < v.length by omega), ok_bind]
  generalize v[0] = n
  refine answers_of_check rfl (fun _ => by omega) fun hz => ?_
  refine answers_of_check rfl (fun _ => by omega) fun hf => ?_
  rw [byteAt_of_lt (show 1 < v.length by omega), ok_bind, subBytes_of_le (by omega), ok_bind,
    byteAt_of_lt (show n.toNat + 1 < v.length by omega), ok_bind,
    be32At_of_lt (show n.toNat + 1 + 1 + 3 < v.length by omega), ok_bind,
    byteAt_of_lt (show n.toNat + 1 + 5 < v.length by omega), ok_bind]
  generalize joinBe32 _ _ _ _ = ifn
  generalize v[n.toNat + 1] = ifs
  generalize v[n.toNat + 1 + 5] = m
  refine answers_of_check rfl (fun _ => by omega) fun _ => ?_
  refine answers_of_check rfl (fun _ => by omega) fun _ => ?_
  refine answers_of_check rfl (fun _ => by omega) fun hm => ?_
  refine answers_of_check rfl (fun h => ?_) fun _ => ?_
  · rw [not_not] at h
    omega
  · rw [subBytes_of_le (by omega), ok_bind]
    exact .inl ⟨_, rfl⟩

/-- Every decoder of the registry, on a value of its declared length. -/
theorem registry_answers (p : Params) (t : TypeCode) (l : TlvLen) (c : Nat) (v : List Byte) (hl : v.length = l.toNat) :
    DecoderAnswers t l c v (registry p t t l c v) := by
  rcases registry_cases p t with (h | h | h | h | h | h | h | h | h | h) | ⟨_, h⟩
  · subst h
    refine answers_of_boundsCheck (dec := decodeEnd) rfl (fun h e => by simp only [decodeEnd, e, error_bind])
      fun e _ => .inl ⟨.endLldpdu, ?_⟩
    simp only [decodeEnd, e, ok_bind]
  · subst h
    refine answers_of_boundsCheck (dec := decodeChassisId p) rfl
      (fun h e => by simp only [decodeChassisId, e, error_bind]) fun e hb => .inl ?_
    have hb : 7 ≤ l.toNat := hb
    simp only [decodeChassisId, e, ok_bind]
    rw [byteAt_of_lt (by omega), ok_bind]
    cases p.chassisIdField
    · exact ⟨_, by rw [subBytes_of_le (show 1 + (l.toNat - 1) ≤ v.length by omega)]; rfl⟩
    · exact ⟨_, by rw [subBytes_of_le (show 1 + 6 ≤ v.length by omega)]; rfl⟩
  · subst h
    refine answers_of_boundsCheck (dec := decodePortId) rfl (fun h e => by simp only [decodePortId, e, error_bind])
      fun e hb => ?_
    have hb : 1 ≤ l.toNat := hb
    have hd : (v.drop 1).take (l.toNat - 1) = v.drop 1 := List.take_of_length_le (by simp; omega)
    show DecoderAnswers 2 l c v (decodePortId 2 l c v)
    simp only [decodePortId, e, ok_bind]
    rw [byteAt_of_lt (by omega), ok_bind, subBytes_of_le (by omega), ok_bind, hd]
    cases hu : utf8Valid (v.drop 1)
    · exact .inr ⟨.utf8Invalid, fieldInfo 2 l c (c + 3), by simp only [checkText, check, hu]; rfl,
        .inr (.inr ⟨rfl, .inl ⟨rfl, rfl, hb, hu⟩⟩)⟩
    · exact .inl ⟨_, by simp only [checkText, check, hu]; rfl⟩
  · subst h
    refine answers_of_boundsCheck (dec := decodeTtl) rfl (fun h e => by simp only [decodeTtl, e, error_bind])
      fun e hb => .inl ?_
    have hb : 2 ≤ l.toNat := hb
    exact ⟨_, by simp only [decodeTtl, e, ok_bind]; rw [be16At_of_lt (by omega), ok_bind]⟩
  · subst h
    refine answers_of_boundsCheck (dec := decodePortDesc) rfl (fun h e => by simp only [decodePortDesc, e, error_bind])
      fun e _ => ?_
    simp only [decodePortDesc, e, ok_bind]
    exact text_answers .portDesc (.inl rfl)
  · subst h
    refine answers_of_boundsCheck (dec := decodeSysName) rfl (fun h e => by simp only [decodeSysName, e, error_bind])
      fun e _ => ?_
    simp only [decodeSysName, e, ok_bind]
    exact text_answers .sysName (.inr (.inl rfl))
  · subst h
    refine answers_of_boundsCheck (dec := decodeSysDesc) rfl (fun h e => by simp only [decodeSysDesc, e, error_bind])
      fun e _ => ?_
    simp only [decodeSysDesc, e, ok_bind]
    exact text_answers .sysDesc (.inr (.inr rfl))
  · subst h
    refine answers_of_boundsCheck (dec := decodeSysCap) rfl (fun h e => by simp only [decodeSysCap, e, error_bind])
      fun e hb => .inl ?_
    have hb : 4 ≤ l.toNat := hb
    exact ⟨_, by simp only [decodeSysCap, e, ok_bind]; rw [be16At_of_lt (by omega), ok_bind, be16At_of_lt (by omega), ok_bind]⟩
  · subst h
    exact decodeMgmtAddr_answers p l c v hl
  · subst h
    refine answers_of_boundsCheck (dec := decodeOrgSpecific) rfl
      (fun h e => by simp only [decodeOrgSpecific, e, error_bind]) fun e hb => .inl ?_
    have hb : 4 ≤ l.toNat := hb
    simp only [decodeOrgSpecific, e, ok_bind]
    rw [subBytes_of_le (by omega), ok_bind, byteAt_of_lt (by omega), ok_bind, subBytes_of_le (by omega), ok_bind]
    exact ⟨_, rfl⟩
  · rw [h]
    exact .inl ⟨_, rfl⟩

/-- A record the registry's decoder returns is well formed. -/
theorem registry_record_ok {t : TypeCode} {l : TlvLen} {c o : Nat} {v : List Byte} {body : RecordBody}
    (hl : v.length = l.toNat) (h : registry Config.params t t l c v = .ok body) :
    Record.ok { typeCode := t, length := l, tlvOffset := o, body := body } := by
  have hlen : ∀ i n : Nat, i + n ≤ v.length → ((v.drop i).take n).length = n := by
    intro i n h
    simp
    omega
  rcases registry_cases Config.params t with (e | e | e | e | e | e | e | e | e | e) | ⟨hf, e⟩
  · subst e
    change decodeEnd 0 l c v = _ at h
    simp only [decodeEnd, bind_eq_ok, boundsCheck_eq_ok] at h
    obtain ⟨_, hb, h⟩ := h
    cases h
    exact ⟨hb, rfl⟩
  · subst e
    change decodeChassisId Config.params 1 l c v = _ at h
    simp only [decodeChassisId, bind_eq_ok, boundsCheck_eq_ok, Config.params, subBytes_eq_ok] at h
    obtain ⟨_, hb, s, _, id, ⟨h1, rfl⟩, h⟩ := h
    cases h
    have h7 : 7 ≤ l.toNat := hb.1
    refine ⟨hb, rfl, ?_, subtypeClass_code s, rfl⟩
    show 1 + _ = l.toNat
    rw [hlen _ _ h1]
    omega
  · subst e
    change decodePortId 2 l c v = _ at h
    simp only [decodePortId, bind_eq_ok, boundsCheck_eq_ok, subBytes_eq_ok, checkText_eq_ok] at h
    obtain ⟨_, hb, s, _, id, ⟨h1, rfl⟩, _, hu, h⟩ := h
    cases h
    have h7 : 1 ≤ l.toNat := hb.1
    refine ⟨hb, rfl, ?_, subtypeClass_code s, hu⟩
    show 1 + _ = l.toNat
    rw [hlen _ _ h1]
    omega
  · subst e
    change decodeTtl 3 l c v = _ at h
    simp only [decodeTtl, bind_eq_ok, boundsCheck_eq_ok] at h
    obtain ⟨_, hb, s, _, h⟩ := h
    cases h
    exact ⟨hb, rfl⟩
  · subst e
    change decodePortDesc 4 l c v = _ at h
    simp only [decodePortDesc, bind_eq_ok, boundsCheck_eq_ok, checkText_eq_ok] at h
    obtain ⟨_, hb, _, hu, h⟩ := h
    cases h
    exact ⟨hb, rfl, hl, hu⟩
  · subst e
    change decodeSysName 5 l c v = _ at h
    simp only [decodeSysName, bind_eq_ok, boundsCheck_eq_ok, checkText_eq_ok] at h
    obtain ⟨_, hb, _, hu, h⟩ := h
    cases h
    exact ⟨hb, rfl, hl, hu⟩
  · subst e
    change decodeSysDesc 6 l c v = _ at h
    simp only [decodeSysDesc, bind_eq_ok, boundsCheck_eq_ok, checkText_eq_ok] at h
    obtain ⟨_, hb, _, hu, h⟩ := h
    cases h
    exact ⟨hb, rfl, hl, hu⟩
  · subst e
    change decodeSysCap 7 l c v = _ at h
    simp only [decodeSysCap, bind_eq_ok, boundsCheck_eq_ok] at h
    obtain ⟨_, hb, s, _, e, _, h⟩ := h
    cases h
    exact ⟨hb, rfl, fun i => ⟨capabilityBits_getElem _ _ i.isLt, capabilityBits_getElem _ _ i.isLt⟩⟩
  · subst e
    change decodeMgmtAddr Config.params 8 l c v = _ at h
    simp only [decodeMgmtAddr, bind_eq_ok, boundsCheck_eq_ok, check_eq_ok, subBytes_eq_ok] at h
    obtain ⟨_, hb, n, _, _, hz, _, hf, asub, _, addr, ⟨ha, rfl⟩, ifs, _, ifn, _, m, _, _, h3, _, h4, _, h5, _, h6, oid,
      ⟨h7, rfl⟩, h⟩ := h
    cases h
    have hn0 : n.toNat ≠ 0 := by
      intro h
      apply hz
      apply BitVec.eq_of_toNat_eq
      simpa using h
    have h6' : ¬ n.toNat + 1 + 6 + m.toNat < l.toNat := fun h => h6 ⟨h, rfl⟩
    refine ⟨hb, rfl, ?_, hlen _ _ h7, ?_, h3, ?_, ?_, rfl⟩
    · rw [hlen _ _ ha]
      omega
    · show _ = l.toNat
      omega
    · intro h0
      by_contra hc
      exact h4 ⟨h0, hc⟩
    · simp
  · subst e
    change decodeOrgSpecific 127 l c v = _ at h
    simp only [decodeOrgSpecific, bind_eq_ok, boundsCheck_eq_ok, subBytes_eq_ok] at h
    obtain ⟨_, hb, oui, ⟨h1, rfl⟩, sub, _, info, ⟨h2, rfl⟩, h⟩ := h
    cases h
    have h7 : 4 ≤ l.toNat := hb.1
    refine ⟨hb, rfl, hlen _ _ h1, ?_⟩
    show 4 + _ = l.toNat
    rw [hlen _ _ h2]
    omega
  · rw [e] at h
    cases h
    refine ⟨?_, hf, hl⟩
    show (lengthBounds t).1 ≤ l ∧ l ≤ (lengthBounds t).2
    rw [lengthBounds_fallback hf]
    have := l.isLt
    exact ⟨Nat.zero_le l.toNat, show l.toNat ≤ 511 by omega⟩

end Sys2Proof.Machine
end

