-- ==== Sys2Proof/Laws/PerInstr.lean ====
section
/-! SUPPORT. Per-instruction facts about the syntax: the opcode map gives a well-formed TLV instruction back from its
header fields (30_encoding.md R56). -/

namespace Sys2Proof.Laws.OpcodeMap

/-- The opcode map inverts `header?` on well-formed instructions. -/
def Statement (i : Instr) : Prop :=
  i.wellFormed = true → ∀ t l, i.header? = some (t, l) → instrOfHeader t l = i

theorem envelope : Statement .envelope := by
  intro _ t l h
  cases h

theorem endLldpdu (length : TlvLen) : Statement (.endLldpdu length) := by
  rintro _ _ _ ⟨⟩
  rfl

theorem chassisId (length : TlvLen) : Statement (.chassisId length) := by
  rintro _ _ _ ⟨⟩
  rfl

theorem portId (length : TlvLen) : Statement (.portId length) := by
  rintro _ _ _ ⟨⟩
  rfl

theorem ttl (length : TlvLen) : Statement (.ttl length) := by
  rintro _ _ _ ⟨⟩
  rfl

theorem portDesc (length : TlvLen) : Statement (.portDesc length) := by
  rintro _ _ _ ⟨⟩
  rfl

theorem sysName (length : TlvLen) : Statement (.sysName length) := by
  rintro _ _ _ ⟨⟩
  rfl

theorem sysDesc (length : TlvLen) : Statement (.sysDesc length) := by
  rintro _ _ _ ⟨⟩
  rfl

theorem sysCap (length : TlvLen) : Statement (.sysCap length) := by
  rintro _ _ _ ⟨⟩
  rfl

theorem mgmtAddr (length : TlvLen) : Statement (.mgmtAddr length) := by
  rintro _ _ _ ⟨⟩
  rfl

theorem orgSpecific (length : TlvLen) : Statement (.orgSpecific length) := by
  rintro _ _ _ ⟨⟩
  rfl

theorem unimplemented (typeCode : TypeCode) (length : TlvLen) : Statement (.unimplemented typeCode length) := by
  rintro hwf _ _ ⟨⟩
  simp only [Instr.wellFormed, TypeCode.isFallback, Bool.and_eq_true, decide_eq_true_eq] at hwf
  unfold instrOfHeader
  split <;> first | rfl | omega

end Sys2Proof.Laws.OpcodeMap
end

