-- ==== Sys2Proof/Laws/State.lean ====
section
/-! SUPPORT. One lemma per field per named update of State: what each update writes and what it leaves. -/

namespace Sys2Proof.Machine

variable (s : State)

/-! `State.finish` -/

@[simp] theorem State.finish_phase (e : Ending) : (s.finish e).phase = .done := rfl
@[simp] theorem State.finish_frameLen (e : Ending) : (s.finish e).frameLen = s.frameLen := rfl
@[simp] theorem State.finish_cursor (e : Ending) : (s.finish e).cursor = s.cursor := rfl
@[simp] theorem State.finish_recCount (e : Ending) : (s.finish e).recCount = s.recCount := rfl
@[simp] theorem State.finish_outcome (e : Ending) : (s.finish e).outcome = e.outcome := rfl
@[simp] theorem State.finish_errDetail (e : Ending) : (s.finish e).errDetail = e.detail := rfl
@[simp] theorem State.finish_errTlvOffset (e : Ending) : (s.finish e).errTlvOffset = s.errTlvOffset := rfl
@[simp] theorem State.finish_errType (e : Ending) : (s.finish e).errType = s.errType := rfl
@[simp] theorem State.finish_errLen (e : Ending) : (s.finish e).errLen = s.errLen := rfl
@[simp] theorem State.finish_errMin (e : Ending) : (s.finish e).errMin = s.errMin := rfl
@[simp] theorem State.finish_errMax (e : Ending) : (s.finish e).errMax = s.errMax := rfl
@[simp] theorem State.finish_errAvail (e : Ending) : (s.finish e).errAvail = s.errAvail := rfl
@[simp] theorem State.finish_errPos (e : Ending) : (s.finish e).errPos = s.errPos := rfl
@[simp] theorem State.finish_out (e : Ending) : (s.finish e).out = s.out := rfl
@[simp] theorem State.finish_frame (e : Ending) : (s.finish e).frame = s.frame := rfl
@[simp] theorem State.finish_turns (e : Ending) : (s.finish e).turns = s.turns := rfl

/-! `State.raise` -/

@[simp] theorem State.raise_phase (c : Cause) (info : ErrInfo) : (s.raise c info).phase = .done := rfl
@[simp] theorem State.raise_frameLen (c : Cause) (info : ErrInfo) : (s.raise c info).frameLen = s.frameLen := rfl
@[simp] theorem State.raise_cursor (c : Cause) (info : ErrInfo) : (s.raise c info).cursor = s.cursor := rfl
@[simp] theorem State.raise_recCount (c : Cause) (info : ErrInfo) : (s.raise c info).recCount = s.recCount := rfl
@[simp] theorem State.raise_outcome (c : Cause) (info : ErrInfo) : (s.raise c info).outcome = c.outcome := rfl
@[simp] theorem State.raise_errDetail (c : Cause) (info : ErrInfo) : (s.raise c info).errDetail = c.detail := rfl
@[simp] theorem State.raise_errTlvOffset (c : Cause) (info : ErrInfo) : (s.raise c info).errTlvOffset = info.tlvOffset := rfl
@[simp] theorem State.raise_errType (c : Cause) (info : ErrInfo) : (s.raise c info).errType = info.type := rfl
@[simp] theorem State.raise_errLen (c : Cause) (info : ErrInfo) : (s.raise c info).errLen = info.len := rfl
@[simp] theorem State.raise_errMin (c : Cause) (info : ErrInfo) : (s.raise c info).errMin = info.min := rfl
@[simp] theorem State.raise_errMax (c : Cause) (info : ErrInfo) : (s.raise c info).errMax = info.max := rfl
@[simp] theorem State.raise_errAvail (c : Cause) (info : ErrInfo) : (s.raise c info).errAvail = info.avail := rfl
@[simp] theorem State.raise_errPos (c : Cause) (info : ErrInfo) : (s.raise c info).errPos = info.pos := rfl
@[simp] theorem State.raise_out (c : Cause) (info : ErrInfo) : (s.raise c info).out = s.out := rfl
@[simp] theorem State.raise_frame (c : Cause) (info : ErrInfo) : (s.raise c info).frame = s.frame := rfl
@[simp] theorem State.raise_turns (c : Cause) (info : ErrInfo) : (s.raise c info).turns = s.turns := rfl

/-! `State.emit` -/

@[simp] theorem State.emit_phase (r : Record) : (s.emit r).phase = s.phase := rfl
@[simp] theorem State.emit_frameLen (r : Record) : (s.emit r).frameLen = s.frameLen := rfl
@[simp] theorem State.emit_cursor (r : Record) : (s.emit r).cursor = s.cursor := rfl
@[simp] theorem State.emit_recCount (r : Record) : (s.emit r).recCount = s.recCount + 1 := rfl
@[simp] theorem State.emit_outcome (r : Record) : (s.emit r).outcome = s.outcome := rfl
@[simp] theorem State.emit_errDetail (r : Record) : (s.emit r).errDetail = s.errDetail := rfl
@[simp] theorem State.emit_errTlvOffset (r : Record) : (s.emit r).errTlvOffset = s.errTlvOffset := rfl
@[simp] theorem State.emit_errType (r : Record) : (s.emit r).errType = s.errType := rfl
@[simp] theorem State.emit_errLen (r : Record) : (s.emit r).errLen = s.errLen := rfl
@[simp] theorem State.emit_errMin (r : Record) : (s.emit r).errMin = s.errMin := rfl
@[simp] theorem State.emit_errMax (r : Record) : (s.emit r).errMax = s.errMax := rfl
@[simp] theorem State.emit_errAvail (r : Record) : (s.emit r).errAvail = s.errAvail := rfl
@[simp] theorem State.emit_errPos (r : Record) : (s.emit r).errPos = s.errPos := rfl
@[simp] theorem State.emit_out (r : Record) : (s.emit r).out = s.out ++ [r] := rfl
@[simp] theorem State.emit_frame (r : Record) : (s.emit r).frame = s.frame := rfl
@[simp] theorem State.emit_turns (r : Record) : (s.emit r).turns = s.turns := rfl

/-! `State.setCursor` -/

@[simp] theorem State.setCursor_phase (n : Nat) : (s.setCursor n).phase = s.phase := rfl
@[simp] theorem State.setCursor_frameLen (n : Nat) : (s.setCursor n).frameLen = s.frameLen := rfl
@[simp] theorem State.setCursor_cursor (n : Nat) : (s.setCursor n).cursor = n := rfl
@[simp] theorem State.setCursor_recCount (n : Nat) : (s.setCursor n).recCount = s.recCount := rfl
@[simp] theorem State.setCursor_outcome (n : Nat) : (s.setCursor n).outcome = s.outcome := rfl
@[simp] theorem State.setCursor_errDetail (n : Nat) : (s.setCursor n).errDetail = s.errDetail := rfl
@[simp] theorem State.setCursor_errTlvOffset (n : Nat) : (s.setCursor n).errTlvOffset = s.errTlvOffset := rfl
@[simp] theorem State.setCursor_errType (n : Nat) : (s.setCursor n).errType = s.errType := rfl
@[simp] theorem State.setCursor_errLen (n : Nat) : (s.setCursor n).errLen = s.errLen := rfl
@[simp] theorem State.setCursor_errMin (n : Nat) : (s.setCursor n).errMin = s.errMin := rfl
@[simp] theorem State.setCursor_errMax (n : Nat) : (s.setCursor n).errMax = s.errMax := rfl
@[simp] theorem State.setCursor_errAvail (n : Nat) : (s.setCursor n).errAvail = s.errAvail := rfl
@[simp] theorem State.setCursor_errPos (n : Nat) : (s.setCursor n).errPos = s.errPos := rfl
@[simp] theorem State.setCursor_out (n : Nat) : (s.setCursor n).out = s.out := rfl
@[simp] theorem State.setCursor_frame (n : Nat) : (s.setCursor n).frame = s.frame := rfl
@[simp] theorem State.setCursor_turns (n : Nat) : (s.setCursor n).turns = s.turns := rfl

/-! `State.enterWalk` -/

@[simp] theorem State.enterWalk_phase : (s.enterWalk).phase = .walk := rfl
@[simp] theorem State.enterWalk_frameLen : (s.enterWalk).frameLen = s.frameLen := rfl
@[simp] theorem State.enterWalk_cursor : (s.enterWalk).cursor = 14 := rfl
@[simp] theorem State.enterWalk_recCount : (s.enterWalk).recCount = s.recCount := rfl
@[simp] theorem State.enterWalk_outcome : (s.enterWalk).outcome = s.outcome := rfl
@[simp] theorem State.enterWalk_errDetail : (s.enterWalk).errDetail = s.errDetail := rfl
@[simp] theorem State.enterWalk_errTlvOffset : (s.enterWalk).errTlvOffset = s.errTlvOffset := rfl
@[simp] theorem State.enterWalk_errType : (s.enterWalk).errType = s.errType := rfl
@[simp] theorem State.enterWalk_errLen : (s.enterWalk).errLen = s.errLen := rfl
@[simp] theorem State.enterWalk_errMin : (s.enterWalk).errMin = s.errMin := rfl
@[simp] theorem State.enterWalk_errMax : (s.enterWalk).errMax = s.errMax := rfl
@[simp] theorem State.enterWalk_errAvail : (s.enterWalk).errAvail = s.errAvail := rfl
@[simp] theorem State.enterWalk_errPos : (s.enterWalk).errPos = s.errPos := rfl
@[simp] theorem State.enterWalk_out : (s.enterWalk).out = s.out := rfl
@[simp] theorem State.enterWalk_frame : (s.enterWalk).frame = s.frame := rfl
@[simp] theorem State.enterWalk_turns : (s.enterWalk).turns = s.turns := rfl

/-! `State.afterTurn` -/

@[simp] theorem State.afterTurn_phase : (s.afterTurn).phase = s.phase := rfl
@[simp] theorem State.afterTurn_frameLen : (s.afterTurn).frameLen = s.frameLen := rfl
@[simp] theorem State.afterTurn_cursor : (s.afterTurn).cursor = s.cursor := rfl
@[simp] theorem State.afterTurn_recCount : (s.afterTurn).recCount = s.recCount := rfl
@[simp] theorem State.afterTurn_outcome : (s.afterTurn).outcome = s.outcome := rfl
@[simp] theorem State.afterTurn_errDetail : (s.afterTurn).errDetail = s.errDetail := rfl
@[simp] theorem State.afterTurn_errTlvOffset : (s.afterTurn).errTlvOffset = s.errTlvOffset := rfl
@[simp] theorem State.afterTurn_errType : (s.afterTurn).errType = s.errType := rfl
@[simp] theorem State.afterTurn_errLen : (s.afterTurn).errLen = s.errLen := rfl
@[simp] theorem State.afterTurn_errMin : (s.afterTurn).errMin = s.errMin := rfl
@[simp] theorem State.afterTurn_errMax : (s.afterTurn).errMax = s.errMax := rfl
@[simp] theorem State.afterTurn_errAvail : (s.afterTurn).errAvail = s.errAvail := rfl
@[simp] theorem State.afterTurn_errPos : (s.afterTurn).errPos = s.errPos := rfl
@[simp] theorem State.afterTurn_out : (s.afterTurn).out = s.out := rfl
@[simp] theorem State.afterTurn_frame : (s.afterTurn).frame = s.frame := rfl
@[simp] theorem State.afterTurn_turns : (s.afterTurn).turns = s.turns.tail := rfl

/-! `State.withRecord` -/

@[simp] theorem State.withRecord_phase (t : TypeCode) (l : TlvLen) (b : RecordBody) : (s.withRecord t l b).phase = s.phase := rfl
@[simp] theorem State.withRecord_frameLen (t : TypeCode) (l : TlvLen) (b : RecordBody) : (s.withRecord t l b).frameLen = s.frameLen := rfl
@[simp] theorem State.withRecord_cursor (t : TypeCode) (l : TlvLen) (b : RecordBody) : (s.withRecord t l b).cursor = s.cursor + 2 + l.toNat := rfl
@[simp] theorem State.withRecord_recCount (t : TypeCode) (l : TlvLen) (b : RecordBody) : (s.withRecord t l b).recCount = s.recCount + 1 := rfl
@[simp] theorem State.withRecord_outcome (t : TypeCode) (l : TlvLen) (b : RecordBody) : (s.withRecord t l b).outcome = s.outcome := rfl
@[simp] theorem State.withRecord_errDetail (t : TypeCode) (l : TlvLen) (b : RecordBody) : (s.withRecord t l b).errDetail = s.errDetail := rfl
@[simp] theorem State.withRecord_errTlvOffset (t : TypeCode) (l : TlvLen) (b : RecordBody) : (s.withRecord t l b).errTlvOffset = s.errTlvOffset := rfl
@[simp] theorem State.withRecord_errType (t : TypeCode) (l : TlvLen) (b : RecordBody) : (s.withRecord t l b).errType = s.errType := rfl
@[simp] theorem State.withRecord_errLen (t : TypeCode) (l : TlvLen) (b : RecordBody) : (s.withRecord t l b).errLen = s.errLen := rfl
@[simp] theorem State.withRecord_errMin (t : TypeCode) (l : TlvLen) (b : RecordBody) : (s.withRecord t l b).errMin = s.errMin := rfl
@[simp] theorem State.withRecord_errMax (t : TypeCode) (l : TlvLen) (b : RecordBody) : (s.withRecord t l b).errMax = s.errMax := rfl
@[simp] theorem State.withRecord_errAvail (t : TypeCode) (l : TlvLen) (b : RecordBody) : (s.withRecord t l b).errAvail = s.errAvail := rfl
@[simp] theorem State.withRecord_errPos (t : TypeCode) (l : TlvLen) (b : RecordBody) : (s.withRecord t l b).errPos = s.errPos := rfl
@[simp] theorem State.withRecord_out (t : TypeCode) (l : TlvLen) (b : RecordBody) : (s.withRecord t l b).out = s.out ++ [{ typeCode := t, length := l, tlvOffset := s.cursor, body := b }] := rfl
@[simp] theorem State.withRecord_frame (t : TypeCode) (l : TlvLen) (b : RecordBody) : (s.withRecord t l b).frame = s.frame := rfl
@[simp] theorem State.withRecord_turns (t : TypeCode) (l : TlvLen) (b : RecordBody) : (s.withRecord t l b).turns = s.turns := rfl

/-- An error ending in the words of the claims: the registers of 60_exceptions.md R116. -/
theorem State.raise_eq_endedWith (c : Cause) (info : ErrInfo) :
    s.raise c info = s.endedWith c.outcome c.detail info := rfl

/-- Without `STOP_AT_END`, committing a record is exactly emitting it and moving the cursor. -/
theorem commitRecord_eq_withRecord (p : Params) (hp : p.stopAtEnd = false) (t : TypeCode) (l : TlvLen)
    (body : RecordBody) : commitRecord p t l body s = s.withRecord t l body := by
  simp [commitRecord, hp, State.withRecord, State.emit, State.setCursor]

/-- On this hardware, committing a record is exactly emitting it and moving the cursor. -/
theorem commitRecord_params (t : TypeCode) (l : TlvLen) (body : RecordBody) :
    commitRecord Config.params t l body s = s.withRecord t l body :=
  commitRecord_eq_withRecord s _ rfl t l body

end Sys2Proof.Machine
end

