-- ==== Sys2Proof/Laws/Walk.lean ====
section
/-! SUPPORT. What the shared WALK operation can do, once: `runTlv` on a TLV that is ready, and every way it can answer a
next state. -/

namespace Sys2Proof.Machine

theorem walkEnding_eq_none {s : State} : walkEnding s = none ↔ s.cursor + 2 ≤ s.frameLen := by
  simp only [walkEnding]
  split
  · simp; omega
  · split
    · simp; omega
    · simp; omega

theorem walkEnding_eq_some {s s' : State} (hc : s.cursor ≤ s.frameLen) : walkEnding s = some s' ↔
    (s.cursor = s.frameLen ∧ s' = s.finish .ok)
    ∨ (s.cursor + 1 = s.frameLen
      ∧ s' = s.raise .header { tlvOffset := s.cursor, avail := 1, pos := s.cursor }) := by
  simp only [walkEnding]
  split
  · have : s.cursor = s.frameLen := by omega
    simp [this, eq_comm]
  · split
    · have h1 : s.cursor + 1 = s.frameLen := by omega
      have h2 : s.cursor ≠ s.frameLen := by omega
      simp [h1, h2, eq_comm]
    · have h1 : s.cursor + 1 ≠ s.frameLen := by omega
      have h2 : s.cursor ≠ s.frameLen := by omega
      simp [h1, h2]

/-- A TLV whose header lies in the frame is handled by `runHeader`. -/
theorem runTlv_of_header {p : Params} {decoder : Decoder} {t : TypeCode} {l : TlvLen} {s : State}
    (hp : s.phase = .walk) (hh : s.cursor + 2 ≤ s.frameLen) :
    runTlv p decoder t l s = runHeader p decoder t l s := by
  have h1 : ¬ s.frameLen < s.cursor := by omega
  simp [runTlv, hp, h1, walkEnding_eq_none.2 hh]

/-- A TLV that is ready goes to its decoder. -/
theorem runTlv_ready {p : Params} {decoder : Decoder} {t : TypeCode} {l : TlvLen} {s : State} {v : List Byte}
    (hr : s.tlvReady l v) : runTlv p decoder t l s =
      match decoder t l s.cursor v with
      | .error h => s.halt h
      | .ok body => .next (commitRecord p t l body s) := by
  obtain ⟨hp, hlen, hv⟩ := hr
  rw [runTlv_of_header hp (by omega), runHeader]
  have h1 : ¬ l.toNat > s.frameLen - s.cursor - 2 := by omega
  have h2 : s.bytes (s.cursor + 2) l.toNat = .ok v := State.bytes_eq_ok.2 ⟨hlen, hv⟩
  cases hd : decoder t l s.cursor v <;> simp [h1, h2, hd]

/-- A value cut short by the end of the frame (41_header_and_sequencer.md R73). -/
theorem runTlv_truncated {p : Params} {decoder : Decoder} {t : TypeCode} {l : TlvLen} {s : State}
    (hp : s.phase = .walk) (hh : s.cursor + 2 ≤ s.frameLen) (ht : s.frameLen < s.cursor + 2 + l.toNat) :
    runTlv p decoder t l s = .next (s.raise .value
      { tlvOffset := s.cursor, type := t, len := l, avail := s.frameLen - s.cursor - 2, pos := s.cursor + 2 }) := by
  rw [runTlv_of_header hp hh, runHeader]
  have h1 : l.toNat > s.frameLen - s.cursor - 2 := by omega
  simp [h1]

theorem halt_eq_next {s s' : State} {h : Halt} : s.halt h = .next s' ↔ ∃ c info, h = .raised c info ∧ s' = s.raise c info := by
  cases h <;> simp [State.halt, eq_comm]

/-- Everything `runTlv` can do when it answers a next state. -/
theorem runTlv_next {p : Params} {decoder : Decoder} {t : TypeCode} {l : TlvLen} {s s' : State}
    (h : runTlv p decoder t l s = .next s') :
    s.phase = .walk ∧ s.cursor ≤ s.frameLen ∧
      ((s.cursor = s.frameLen ∧ s' = s.finish .ok)
      ∨ (s.cursor + 1 = s.frameLen
        ∧ s' = s.raise .header { tlvOffset := s.cursor, avail := 1, pos := s.cursor })
      ∨ (s.cursor + 2 ≤ s.frameLen ∧ s.frameLen < s.cursor + 2 + l.toNat ∧ s' = s.raise .value
          { tlvOffset := s.cursor, type := t, len := l, avail := s.frameLen - s.cursor - 2, pos := s.cursor + 2 })
      ∨ (∃ v c info, s.tlvReady l v ∧ decoder t l s.cursor v = .error (.raised c info) ∧ s' = s.raise c info)
      ∨ (∃ v body, s.tlvReady l v ∧ decoder t l s.cursor v = .ok body ∧ s' = commitRecord p t l body s)) := by
  by_cases hp : s.phase = .walk
  · by_cases hc : s.frameLen < s.cursor
    · simp [runTlv, hp, hc] at h
    · refine ⟨hp, by omega, ?_⟩
      by_cases hh : s.cursor + 2 ≤ s.frameLen
      · by_cases ht : s.frameLen < s.cursor + 2 + l.toNat
        · rw [runTlv_truncated hp hh ht] at h
          cases h
          exact .inr (.inr (.inl ⟨hh, ht, rfl⟩))
        · rw [runTlv_of_header hp hh, runHeader] at h
          have h1 : ¬ l.toNat > s.frameLen - s.cursor - 2 := by omega
          simp only [h1, if_false] at h
          split at h
          · next e he =>
            obtain ⟨r, rfl⟩ := State.bytes_eq_error he
            cases h
          · next v hv =>
            obtain ⟨hlen, hv⟩ := State.bytes_eq_ok.1 hv
            split at h
            · next e he =>
              obtain ⟨c, info, rfl, rfl⟩ := halt_eq_next.1 h
              exact .inr (.inr (.inr (.inl ⟨v, c, info, ⟨hp, hlen, hv⟩, he, rfl⟩)))
            · next body hb =>
              cases h
              exact .inr (.inr (.inr (.inr ⟨v, body, ⟨hp, hlen, hv⟩, hb, rfl⟩)))
      · have hn : walkEnding s ≠ none := fun hn => hh (walkEnding_eq_none.1 hn)
        obtain ⟨e, he⟩ := Option.ne_none_iff_exists'.1 hn
        simp only [runTlv, hp, ne_eq, not_true_eq_false, if_false, hc, he] at h
        cases h
        rcases (walkEnding_eq_some (by omega)).1 he with h' | h'
        · exact .inl h'
        · exact .inr (.inl h')
  · simp [runTlv, hp] at h

/-- `exec` on a well-formed TLV instruction is the shared WALK operation with the registry's decoder. -/
theorem exec_eq_runTlv {i : Instr} {t : TypeCode} {l : TlvLen} (s : State) (hi : i.header? = some (t, l))
    (hwf : i.wellFormed = true) :
    exec i s = runTlv Config.params (registry Config.params t) t l s := by
  cases i <;> simp only [Instr.header?, reduceCtorEq, Option.some.injEq, Prod.mk.injEq] at hi
  case unimplemented t' l' =>
    obtain ⟨rfl, rfl⟩ := hi
    simp only [Instr.wellFormed, TypeCode.isFallback, Bool.and_eq_true, decide_eq_true_eq] at hwf
    have hreg : registry Config.params t' = decodeFallback := by
      unfold registry
      split <;> first | rfl | omega
    rw [hreg]
    rfl
  all_goals (obtain ⟨rfl, rfl⟩ := hi; rfl)

/-- Fetching in WALK: the two endings, or the instruction of the header at the cursor. -/
theorem fetchTlv_eq_instr {s : State} {b0 b1 : Byte} (hh : s.cursor + 2 ≤ s.frameLen)
    (hb : s.frame.readBytes s.cursor 2 = some [b0, b1]) :
    fetchTlv s = .instr (decodeHeaderWord (joinBe16 b0 b1)) := by
  have h1 : ¬ s.frameLen < s.cursor := by omega
  simp [fetchTlv, h1, walkEnding_eq_none.2 hh, State.memRead_two hh hb]

/-- Everything the block's WALK turn can do when it answers a next state. -/
theorem walkTurn_next {s s' : State} (hp : s.phase = .walk) (h : blockTurn s = .next s') :
    s.cursor ≤ s.frameLen ∧
      ((s.cursor = s.frameLen ∧ s' = s.finish .ok)
      ∨ (s.cursor + 1 = s.frameLen
        ∧ s' = s.raise .header { tlvOffset := s.cursor, avail := 1, pos := s.cursor })
      ∨ (∃ b0 b1, s.cursor + 2 ≤ s.frameLen ∧ s.frame.readBytes s.cursor 2 = some [b0, b1]
        ∧ exec (decodeHeaderWord (joinBe16 b0 b1)) s = .next s')) := by
  simp only [blockTurn, hp] at h
  by_cases hc : s.frameLen < s.cursor
  · simp [fetchTlv, hc, State.halt] at h
  · refine ⟨by omega, ?_⟩
    by_cases hh : s.cursor + 2 ≤ s.frameLen
    · simp only [fetchTlv, hc, if_false, walkEnding_eq_none.2 hh] at h
      cases hm : s.memRead s.cursor 2 with
      | error e =>
        obtain ⟨r, rfl⟩ := State.memRead_eq_error hm
        simp [hm, State.halt] at h
      | ok w =>
        simp only [hm] at h
        obtain ⟨bs, _, hbs, rfl⟩ := State.memRead_eq_ok.1 hm
        have hlen := Memory.length_readBytes hbs
        match bs, hlen with
        | [b0, b1], _ =>
          refine .inr (.inr ⟨b0, b1, hh, hbs, ?_⟩)
          have := State.memRead_two hh hbs
          rw [hm] at this
          rw [Except.ok.inj this] at h
          exact h
    · have hn : walkEnding s ≠ none := fun hn => hh (walkEnding_eq_none.1 hn)
      obtain ⟨e, he⟩ := Option.ne_none_iff_exists'.1 hn
      simp only [fetchTlv, hc, if_false, he] at h
      cases h
      rcases (walkEnding_eq_some (by omega)).1 he with h' | h'
      · exact .inl h'
      · exact .inr (.inl h')

/-- Everything the envelope's meaning can do when it answers a next state (40_frame_validator.md R64). -/
theorem execEnvelope_next {s s' : State} (h : execEnvelope s = .next s') :
    s.phase = .validate ∧
      ((s.frameLen < 14 ∧ s' = s.raise .envelope { avail := s.frameLen })
      ∨ (14 ≤ s.frameLen ∧ (s' = s.finish .notLldpEtherType ∨ s' = s.finish .notLldpDstMac ∨ s' = s.enterWalk))) := by
  unfold execEnvelope at h
  split at h
  · cases h
  · next hp =>
    refine ⟨not_not.1 hp, ?_⟩
    split at h
    · next hl => cases h; exact .inl ⟨hl, rfl⟩
    · next hl =>
      refine .inr ⟨Nat.le_of_not_lt hl, ?_⟩
      split at h
      · next e he =>
        obtain ⟨r, rfl⟩ := State.memRead_eq_error he
        cases h
      · split at h
        · cases h; exact .inl rfl
        · split at h
          · next e he =>
            obtain ⟨r, rfl⟩ := State.bytes_eq_error he
            cases h
          · split at h
            · cases h; exact .inr (.inl rfl)
            · cases h; exact .inr (.inr rfl)

end Sys2Proof.Machine
end

