-- ==== Sys2Proof/Laws/Step.lean ====
section
/-! SUPPORT. What one step can do, once: the block's turn, the host's turn, and the step that picks one. Every invariant is
a case analysis over these lemmas. -/

namespace Sys2Proof.Machine

/-- On the block's turn the step is the block's move with the turn taken off. -/
theorem step_of_blockMoves {s : State} (hb : s.blockMoves = true) : step s = blockTurn s.afterTurn := by
  unfold State.blockMoves at hb
  unfold step State.afterTurn
  rcases h : s.turns with _ | ⟨t, rest⟩
  · simp
    congr 1
    cases s
    simp_all
  · cases t with
    | block => rfl
    | host op => simp [h] at hb

/-- A step is the block's move or a host operation. -/
theorem step_cases (s : State) :
    (s.blockMoves = true ∧ step s = blockTurn s.afterTurn)
    ∨ ∃ op rest, s.turns = .host op :: rest ∧ step s = hostOp Config.params op s.afterTurn := by
  rcases h : s.turns with _ | ⟨t, rest⟩
  · have hb : s.blockMoves = true := by simp [State.blockMoves, h]
    exact .inl ⟨hb, step_of_blockMoves hb⟩
  · cases t with
    | block =>
      have hb : s.blockMoves = true := by simp [State.blockMoves, h]
      exact .inl ⟨hb, step_of_blockMoves hb⟩
    | host op => exact .inr ⟨op, rest, rfl, by simp [step, h, State.afterTurn]⟩

/-- Everything the block's move can do when it answers a next state: nothing in IDLE and DONE; the three results of VALIDATE
and its truncation; the endings of WALK before a header; and, on a header `(t, l)`, the value truncation, an error of the
registry's decoder, or its record. -/
theorem blockTurn_next {s s' : State} (h : blockTurn s = .next s') :
    ((s.phase = .idle ∨ s.phase = .done) ∧ s' = s)
    ∨ (s.phase = .validate ∧ s.frameLen < 14 ∧ s' = s.raise .envelope { avail := s.frameLen })
    ∨ (s.phase = .validate ∧ 14 ≤ s.frameLen
      ∧ (s' = s.finish .notLldpEtherType ∨ s' = s.finish .notLldpDstMac ∨ s' = s.enterWalk))
    ∨ (s.phase = .walk ∧ s.cursor = s.frameLen ∧ s' = s.finish .ok)
    ∨ (s.phase = .walk ∧ s.cursor + 1 = s.frameLen
      ∧ s' = s.raise .header { tlvOffset := s.cursor, avail := 1, pos := s.cursor })
    ∨ (s.phase = .walk ∧ s.cursor + 2 ≤ s.frameLen
      ∧ ∃ t l, s.frame.readBytes s.cursor 2 = some (headerBytes t l) ∧
        ((s.frameLen < s.cursor + 2 + l.toNat ∧ s' = s.raise .value
          { tlvOffset := s.cursor, type := t, len := l, avail := s.frameLen - s.cursor - 2, pos := s.cursor + 2 })
        ∨ (∃ v c info, s.tlvReady l v ∧ registry Config.params t t l s.cursor v = .error (.raised c info)
          ∧ s' = s.raise c info)
        ∨ (∃ v body, s.tlvReady l v ∧ registry Config.params t t l s.cursor v = .ok body
          ∧ s' = s.withRecord t l body))) := by
  cases hp : s.phase
  · simp only [blockTurn, hp, Host.Outcome.next.injEq] at h
    exact .inl ⟨.inl rfl, h.symm⟩
  · simp only [blockTurn, hp, exec] at h
    obtain ⟨_, ⟨h1, h2⟩ | ⟨h1, h2⟩⟩ := execEnvelope_next h
    · exact .inr (.inl ⟨rfl, h1, h2⟩)
    · exact .inr (.inr (.inl ⟨rfl, h1, h2⟩))
  · obtain ⟨_, h | h | ⟨b0, b1, hh, hr, h⟩⟩ := walkTurn_next hp h
    · exact .inr (.inr (.inr (.inl ⟨rfl, h⟩)))
    · exact .inr (.inr (.inr (.inr (.inl ⟨rfl, h⟩))))
    · obtain ⟨hi, hwf⟩ := decodeHeaderWord_header? (joinBe16 b0 b1)
      rw [exec_eq_runTlv _ hi hwf] at h
      refine .inr (.inr (.inr (.inr (.inr ⟨rfl, hh, _, _, by rw [headerBytes_decodeHeader]; exact hr, ?_⟩))))
      rcases runTlv_next h with ⟨_, _, h | h | h | h | ⟨v, body, h1, h2, h3⟩⟩
      · omega
      · omega
      · exact .inl h.2
      · exact .inr (.inl h)
      · rw [commitRecord_params] at h3
        exact .inr (.inr ⟨v, body, h1, h2, h3⟩)
  · simp only [blockTurn, hp, Host.Outcome.next.injEq] at h
    exact .inl ⟨.inr rfl, h.symm⟩

/-- Everything a host operation can do when it answers a next state. -/
theorem hostOp_next {p : Params} {op : HostOp} {s s' : State} (h : hostOp p op s = .next s') :
    (op = .reset ∧ s' = hostReset s)
    ∨ (∃ n, op = .start n ∧ n ≤ p.maxFrameLen ∧ s.phase.running = false ∧ s.frame.written n = true ∧ s' = startRun n s)
    ∨ (∃ a bs, op = .writeFrame a bs ∧ s.phase.running = false ∧ s' = { s with frame := s.frame.writeBytes a bs })
    ∨ ((op = .takeFrame ∨ ∃ r, op = .read r) ∧ s' = s) := by
  cases op with
  | reset =>
    simp only [hostOp, Host.Outcome.next.injEq] at h
    exact .inl ⟨rfl, h.symm⟩
  | start n =>
    simp only [hostOp, hostStart] at h
    split at h
    · cases h
    · next hr =>
      split at h
      · cases h
      · split at h
        · cases h
        · next hw =>
          cases h
          exact .inr (.inl ⟨n, rfl, by omega, by simpa using hr, by simpa using hw, rfl⟩)
  | writeFrame a bs =>
    simp only [hostOp, hostWriteFrame] at h
    split at h
    · cases h
    · next hr =>
      split at h
      · cases h
      · cases h
        exact .inr (.inr (.inl ⟨a, bs, rfl, by simpa using hr, rfl⟩))
  | read r =>
    simp only [hostOp, Host.Outcome.next.injEq] at h
    exact .inr (.inr (.inr ⟨.inr ⟨r, rfl⟩, h.symm⟩))
  | takeFrame =>
    simp only [hostOp, hostTakeFrame] at h
    split at h
    · cases h
      exact .inr (.inr (.inr ⟨.inl rfl, rfl⟩))
    · cases h

/-- A check in the pseudocode's step: it passes, or it ends the step. -/
theorem settle_check {s : State} {ok : Prop} [Decidable ok] {h : Halt} {f : Unit → Except Halt State} :
    s.settle (check ok h >>= f) = if ok then s.settle (f ()) else s.halt h := by
  by_cases hk : ok
  · rw [check_pos hk, if_pos hk, ok_bind]
  · rw [check_neg hk, if_neg hk]
    rfl

/-- On a TLV that is ready, the pseudocode's step at any parameters is the shared WALK operation with the registry's decoder. -/
theorem blockStepWith_ready {p : Params} {s : State} {t : TypeCode} {l : TlvLen} {v : List Byte} (hr : s.tlvReady l v)
    (hb : s.frame.readBytes s.cursor 2 = some (headerBytes t l)) :
    blockStepWith p s = runTlv p (registry p t) t l s := by
  obtain ⟨hp, hlen, hv⟩ := hr
  obtain ⟨b0, b1, e1, e2⟩ := joinBe16_bytesOfNat (encodeHeader t l)
  rw [headerBytes, e1] at hb
  have hm := State.memRead_two (by omega) hb
  rw [e2] at hm
  have h1 : ¬ s.frameLen < s.cursor := by omega
  have h2 : ¬ s.frameLen - s.cursor = 0 := by omega
  have h3 : s.frameLen - s.cursor ≠ 1 := by omega
  have h4 : ¬ l.toNat > s.frameLen - s.cursor - 2 := by omega
  simp only [blockStepWith, hp, walkWith]
  rw [if_neg h1, if_neg h2, settle_check, if_pos h3, hm]
  simp only [ok_bind, decodeHeader_encodeHeader]
  rw [settle_check, if_pos h4, State.bytes_eq_ok.2 ⟨hlen, hv⟩, ok_bind, runTlv_ready ⟨hp, hlen, hv⟩]
  cases registry p t t l s.cursor v with
  | error e => rfl
  | ok b => simp [State.settle, commitRecord]

end Sys2Proof.Machine
end

