-- ==== Sys2Proof/Laws/Text.lean ====
section
/-! SUPPORT. UTF-8: the four shapes of a well-formed sequence, and what decoding does with one in front. -/

namespace Sys2Proof.Machine

theorem Byte.within_iff {b : Byte} {lo hi : Nat} : Byte.within b lo hi = true ↔ lo ≤ b.toNat ∧ b.toNat ≤ hi := by
  simp [Byte.within]

theorem Byte.within_eq_false {b : Byte} {lo hi : Nat} (h : b.toNat < lo ∨ hi < b.toNat) : Byte.within b lo hi = false := by
  simp [Byte.within]
  omega

theorem utf8Lead3_iff {a b : Byte} : utf8Lead3 a b = true ↔
    (a.toNat = 0xE0 ∧ 0xA0 ≤ b.toNat ∧ b.toNat ≤ 0xBF)
    ∨ (0xE1 ≤ a.toNat ∧ a.toNat ≤ 0xEF ∧ a.toNat ≠ 0xED ∧ 0x80 ≤ b.toNat ∧ b.toNat ≤ 0xBF)
    ∨ (a.toNat = 0xED ∧ 0x80 ≤ b.toNat ∧ b.toNat ≤ 0x9F) := by
  simp only [utf8Lead3, Bool.or_eq_true, Bool.and_eq_true, Byte.within_iff]
  omega

theorem utf8Lead4_iff {a b : Byte} : utf8Lead4 a b = true ↔
    (a.toNat = 0xF0 ∧ 0x90 ≤ b.toNat ∧ b.toNat ≤ 0xBF)
    ∨ (0xF1 ≤ a.toNat ∧ a.toNat ≤ 0xF3 ∧ 0x80 ≤ b.toNat ∧ b.toNat ≤ 0xBF)
    ∨ (a.toNat = 0xF4 ∧ 0x80 ≤ b.toNat ∧ b.toNat ≤ 0x8F) := by
  simp only [utf8Lead4, Bool.or_eq_true, Bool.and_eq_true, Byte.within_iff]
  omega

theorem utf8Decode_nil : utf8Decode [] = some [] := rfl

theorem utf8Decode_one {a : Byte} {r : List Byte} (ha : Byte.within a 0x00 0x7F = true) :
    utf8Decode (a :: r) = (utf8Decode r).map (a.toNat :: ·) := by
  rw [utf8Decode.eq_def]
  simp [ha]

theorem utf8Decode_two {a b : Byte} {r : List Byte} (ha : Byte.within a 0xC2 0xDF = true)
    (hb : Byte.within b 0x80 0xBF = true) :
    utf8Decode (a :: b :: r) = (utf8Decode r).map (((a.toNat - 0xC0) * 64 + (b.toNat - 0x80)) :: ·) := by
  have h1 : Byte.within a 0x00 0x7F = false := Byte.within_eq_false (by rw [Byte.within_iff] at ha; omega)
  rw [utf8Decode.eq_def]
  simp [ha, hb, h1]

theorem utf8Decode_three {a b c : Byte} {r : List Byte} (hab : utf8Lead3 a b = true)
    (hc : Byte.within c 0x80 0xBF = true) :
    utf8Decode (a :: b :: c :: r)
      = (utf8Decode r).map (((a.toNat - 0xE0) * 4096 + (b.toNat - 0x80) * 64 + (c.toNat - 0x80)) :: ·) := by
  have h1 : Byte.within a 0x00 0x7F = false := Byte.within_eq_false (by rw [utf8Lead3_iff] at hab; omega)
  have h2 : Byte.within a 0xC2 0xDF = false := Byte.within_eq_false (by rw [utf8Lead3_iff] at hab; omega)
  rw [utf8Decode.eq_def]
  simp [hab, hc, h1, h2]

theorem utf8Decode_four {a b c d : Byte} {r : List Byte} (hab : utf8Lead4 a b = true)
    (hc : Byte.within c 0x80 0xBF = true) (hd : Byte.within d 0x80 0xBF = true) :
    utf8Decode (a :: b :: c :: d :: r)
      = (utf8Decode r).map (((a.toNat - 0xF0) * 262144 + (b.toNat - 0x80) * 4096 + (c.toNat - 0x80) * 64
          + (d.toNat - 0x80)) :: ·) := by
  have h1 : Byte.within a 0x00 0x7F = false := Byte.within_eq_false (by rw [utf8Lead4_iff] at hab; omega)
  have h2 : Byte.within a 0xC2 0xDF = false := Byte.within_eq_false (by rw [utf8Lead4_iff] at hab; omega)
  have h3 : utf8Lead3 a b = false := by
    rw [Bool.eq_false_iff]
    intro h
    rw [utf8Lead3_iff] at h
    rw [utf8Lead4_iff] at hab
    omega
  rw [utf8Decode.eq_def]
  simp [hab, hc, hd, h1, h2, h3]

/-- The table of 42_field_primitives.md R83 by the length of the sequence. -/
theorem wellFormedSequence_iff (q : List Byte) : wellFormedSequence q = true ↔
    (∃ a, q = [a] ∧ Byte.within a 0x00 0x7F = true)
    ∨ (∃ a b, q = [a, b] ∧ Byte.within a 0xC2 0xDF = true ∧ Byte.within b 0x80 0xBF = true)
    ∨ (∃ a b c, q = [a, b, c] ∧ utf8Lead3 a b = true ∧ Byte.within c 0x80 0xBF = true)
    ∨ (∃ a b c d, q = [a, b, c, d] ∧ utf8Lead4 a b = true ∧ Byte.within c 0x80 0xBF = true
      ∧ Byte.within d 0x80 0xBF = true) := by
  rcases q with _ | ⟨a, _ | ⟨b, _ | ⟨c, _ | ⟨d, _ | ⟨e, r⟩⟩⟩⟩⟩ <;>
    simp [wellFormedSequence, utf8Rows, matchesRow, utf8Lead3, utf8Lead4, and_assoc, or_and_right, or_assoc]

end Sys2Proof.Machine
end

