-- ==== Sys2Proof/Tests/Slice0.lean ====
section
/-! SUPPORT. Tests. Every expected result is the spec's: the encodings of 30_encoding.md and the vectors of
95_test_vectors.md, named at each test. After the tests, for every statement with hypotheses a witness that meets all of them, each clause on its
own and at the ends of its range. -/

namespace Sys2Proof.Tests

open Sys2Proof Sys2Proof.Machine

/-- The standard envelope `E` of 95_test_vectors.md. -/
def stdEnvelope : List Byte := [0x01, 0x80, 0xC2, 0x00, 0x00, 0x0E, 0x00, 0x11, 0x22, 0x33, 0x44, 0x55, 0x88, 0xCC]

/-- A run in VALIDATE over a frame that holds `bytes`. -/
def validating (bytes : List Byte) : State :=
  { State.reset with phase := .validate, frameLen := bytes.length, frame := Memory.writeBytes [] 0 bytes }

/-- A run in WALK at the start of a payload: what VALIDATE leaves, with only the payload listed in FRAME. -/
def walking (payload : List Byte) : State :=
  { State.reset with
    phase := .walk, cursor := 14, frameLen := 14 + payload.length, frame := Memory.writeBytes [] 14 payload }

/-- The state after one step, where there is one. -/
def after (s : State) : Option State :=
  match step s with
  | .next t => some t
  | .fault _ => none
  | .refused _ => none

/-- What one step emitted: the record bodies, and where the cursor went. -/
def emitted (s : State) : Option (List RecordBody × Nat) :=
  (after s).map fun t => (t.out.map (·.body), t.cursor)

/-- How one step ended the frame: outcome, detail, cursor and `err_pos`. -/
def ended (s : State) : Option (FrameOutcome × BitVec 4 × Nat × Nat) :=
  (after s).map fun t => (t.outcome, t.errDetail, t.cursor, t.errPos)

/-- The bounds a length error left. -/
def bounds (s : State) : Option (TypeCode × TlvLen × TlvLen × TlvLen) :=
  (after s).map fun t => (t.errType, t.errLen, t.errMin, t.errMax)

/-! ## WellFormed: each check refuses an ill-formed term (30_encoding.md R56) -/

theorem test_wellFormed_refuses_registry_codes :
    (Instr.unimplemented 0 0).wellFormed = false ∧ (Instr.unimplemented 8 5).wellFormed = false
    ∧ (Instr.unimplemented 127 511).wellFormed = false := by decide

theorem test_wellFormed_admits_fallback_codes :
    (Instr.unimplemented 9 0).wellFormed = true ∧ (Instr.unimplemented 126 511).wellFormed = true := by decide

/-! ## Decoding: a word of every constructor, written out from the spec's encoding -/

/-- 40_frame_validator.md R64 with 00_scope.md R6; the source MAC is `00:11:22:33:44:55`. -/
theorem test_decode_envelope : decode .eth14 (stdEnvelope ++ [0x02]) = .instr .envelope [0x02] := by decide

/-- L1.1, L2.1 and P1. The type is the first 7 bits: `0000000 000000000`, `0000001 000000111`, `0000010 000000110`. -/
theorem test_decode_types_0_to_2 :
    decode .tlvhdr16 [0x00, 0x00] = .instr (.endLldpdu 0) [] ∧ decode .tlvhdr16 [0x02, 0x07] = .instr (.chassisId 7) []
    ∧ decode .tlvhdr16 [0x04, 0x06, 0x05] = .instr (.portId 6) [0x05] := by decide

/-- L2.5: `0000011 000000010`, `0000100 000000001`, `0000101 000000011`. -/
theorem test_decode_types_3_to_5 :
    decode .tlvhdr16 [0x06, 0x02] = .instr (.ttl 2) [] ∧ decode .tlvhdr16 [0x08, 0x01] = .instr (.portDesc 1) []
    ∧ decode .tlvhdr16 [0x0A, 0x03] = .instr (.sysName 3) [] := by decide

/-- L2.5 and L2.6: `0000110 100000000` (length 256 uses bit 8), `0000111 000000100`, `0001000 000001100`. -/
theorem test_decode_types_6_to_8 :
    decode .tlvhdr16 [0x0D, 0x00] = .instr (.sysDesc 256) [] ∧ decode .tlvhdr16 [0x0E, 0x04] = .instr (.sysCap 4) []
    ∧ decode .tlvhdr16 [0x10, 0x0C] = .instr (.mgmtAddr 12) [] := by decide

/-- L2.1: `1111111 111111111`, and the first and the last fallback code, `0001001 000000010` and `1111110 000000001`. -/
theorem test_decode_types_127_and_fallback :
    decode .tlvhdr16 [0xFF, 0xFF] = .instr (.orgSpecific 511) []
    ∧ decode .tlvhdr16 [0x12, 0x02] = .instr (.unimplemented 9 2) []
    ∧ decode .tlvhdr16 [0xFC, 0x01] = .instr (.unimplemented 126 1) [] := by decide

/-- 30_encoding.md R57: only missing bytes reject a header. -/
theorem test_decode_short_header : decode .tlvhdr16 [0x02] = .rejected .tooShort := by decide

/-- L1.2: spot values of `EncodeHeader`. -/
theorem test_encode_header :
    encodeHeader 1 7 = 0x0207 ∧ encodeHeader 127 4 = 0xFE04 ∧ encodeHeader 0 511 = 0x01FF ∧ encodeHeader 8 12 = 0x100C := by
  decide

/-- The table numbers an envelope as one 112-bit word, `dst_mac` on top. -/
theorem test_decodeTableWord :
    decodeTableWord 112 0x0180C200000E00112233445588CC = some .envelope
    ∧ decodeTableWord 112 0x0180C200000300112233445588CC = none
    ∧ decodeTableWord 16 0x0207 = some (.chassisId 7) ∧ decodeTableWord 16 0x1202 = some (.unimplemented 9 2) := by decide

/-! ## One step of each instruction -/

/-- L2.2, row `E`: VALIDATE hands the payload over. -/
theorem test_envelope_enters_walk :
    (after (validating stdEnvelope)).map (fun t => (t.phase, t.cursor, t.outcome)) = some (.walk, 14, .none) := by decide

/-- L2.2: 13 bytes; a wrong EtherType; a VLAN tag; a wrong destination. -/
theorem test_envelope_endings :
    (after (validating (stdEnvelope.take 13))).map (fun t => (t.outcome, t.errDetail, t.errAvail))
      = some (.truncatedFrame, 1, 13)
    ∧ ended (validating (stdEnvelope.take 12 ++ [0x88, 0xCD])) = some (.notLldp, 1, 0, 0)
    ∧ ended (validating (stdEnvelope.take 12 ++ [0x81, 0x00, 0x00, 0x01, 0x88, 0xCC, 0x00, 0x00])) = some (.notLldp, 1, 0, 0)
    ∧ ended (validating ([0x01, 0x80, 0xC2, 0x00, 0x00, 0x03] ++ stdEnvelope.drop 6 ++ [0x00, 0x00]))
      = some (.notLldp, 2, 0, 0) := by decide

/-- L2.3: the empty payload, one byte, and two truncated values (the fallback too). -/
theorem test_walk_endings :
    ended (walking []) = some (.ok, 0, 14, 0) ∧ ended (walking [0x00]) = some (.truncatedFrame, 2, 14, 14)
    ∧ ended (walking [0x01, 0xFF]) = some (.truncatedFrame, 3, 14, 16)
    ∧ ended (walking [0x12, 0x05, 0xDE, 0xAD]) = some (.truncatedFrame, 3, 14, 16) := by decide

/-- L2.3: `02 07 04 aa bb`: what is available of the value. -/
theorem test_walk_truncated_value :
    (after (walking [0x02, 0x07, 0x04, 0xAA, 0xBB])).map (fun t => (t.errTlvOffset, t.errType, t.errLen, t.errAvail))
      = some (14, 1, 7, 3) := by decide

/-- L2.5 `00 00`. -/
theorem test_end : emitted (walking [0x00, 0x00]) = some ([.endLldpdu], 16) := by decide

/-- L2.5 `00 01 00`. -/
theorem test_end_with_length :
    ended (walking [0x00, 0x01, 0x00]) = some (.invalidTlvLength, 2, 14, 16)
    ∧ bounds (walking [0x00, 0x01, 0x00]) = some (0, 1, 0, 0) := by decide

/-- L1.3. -/
theorem test_chassisId_mac :
    emitted (walking [0x02, 0x07, 0x04, 0xAA, 0xBB, 0xCC, 0xDD, 0xEE, 0xFF])
      = some ([.chassisId 4 (.named 4) [0xAA, 0xBB, 0xCC, 0xDD, 0xEE, 0xFF] .hexColon], 23) := by decide

/-- L1.4: 6 bytes are too short. L2.5: the reserved subtype 9. -/
theorem test_chassisId_bounds_and_reserved :
    ended (walking [0x02, 0x06, 0x04, 0xAA, 0xBB, 0xCC, 0xDD, 0xEE]) = some (.invalidTlvLength, 1, 14, 16)
    ∧ bounds (walking [0x02, 0x06, 0x04, 0xAA, 0xBB, 0xCC, 0xDD, 0xEE]) = some (1, 6, 7, 256)
    ∧ emitted (walking [0x02, 0x07, 0x09, 1, 2, 3, 4, 5, 6])
      = some ([.chassisId 9 .reserved [1, 2, 3, 4, 5, 6] .hexPlain], 23) := by decide

/-- L2.5 `04 06 05 "Gi0/1"` and `04 01 03`. -/
theorem test_portId :
    emitted (walking [0x04, 0x06, 0x05, 0x47, 0x69, 0x30, 0x2F, 0x31])
      = some ([.portId 5 (.named 5) [0x47, 0x69, 0x30, 0x2F, 0x31]], 22)
    ∧ emitted (walking [0x04, 0x01, 0x03]) = some ([.portId 3 (.named 3) []], 17) := by decide

/-- L2.5 `04 07 03 00 1b 21 8f 9a 01`: `err_pos` is `c + 3`. -/
theorem test_portId_bad_text :
    ended (walking [0x04, 0x07, 0x03, 0x00, 0x1B, 0x21, 0x8F, 0x9A, 0x01]) = some (.decodeError, 1, 14, 17) := by decide

/-- L2.5 `06 02 00 78` and `06 02 ff ff`. -/
theorem test_ttl :
    emitted (walking [0x06, 0x02, 0x00, 0x78]) = some ([.ttl 120], 18)
    ∧ emitted (walking [0x06, 0x02, 0xFF, 0xFF]) = some ([.ttl 65535], 18) := by decide

/-- L2.5 `06 01 00` and `06 03 00 78 00`. -/
theorem test_ttl_length :
    ended (walking [0x06, 0x01, 0x00]) = some (.invalidTlvLength, 1, 14, 16)
    ∧ ended (walking [0x06, 0x03, 0x00, 0x78, 0x00]) = some (.invalidTlvLength, 2, 14, 16)
    ∧ bounds (walking [0x06, 0x03, 0x00, 0x78, 0x00]) = some (3, 3, 2, 2) := by decide

/-- L2.5 `08 00` and `08 01 c3`: the sequence is cut short. -/
theorem test_portDesc :
    emitted (walking [0x08, 0x00]) = some ([.portDesc []], 16)
    ∧ ended (walking [0x08, 0x01, 0xC3]) = some (.decodeError, 1, 14, 16) := by decide

/-- L2.5 `0a 02 c3 a9`, and the overlong `0a 02 c0 80`. -/
theorem test_sysName :
    emitted (walking [0x0A, 0x02, 0xC3, 0xA9]) = some ([.sysName [0xC3, 0xA9]], 18)
    ∧ ended (walking [0x0A, 0x02, 0xC0, 0x80]) = some (.decodeError, 1, 14, 16) := by decide

/-- L2.5 `0c 05 "Linux"`. -/
theorem test_sysDesc :
    emitted (walking [0x0C, 0x05, 0x4C, 0x69, 0x6E, 0x75, 0x78]) = some ([.sysDesc [0x4C, 0x69, 0x6E, 0x75, 0x78]], 21) := by
  decide

/-- L1.5, and L2.5 `0e 04 ff ff 01 00`: bit 8 stays in the raw field only. -/
theorem test_sysCap :
    emitted (walking [0x0E, 0x04, 0x00, 0x14, 0x00, 0x04])
      = some ([.sysCap 0x0014 0x0004 #v[false, false, true, false, true, false, false, false]
          #v[false, false, true, false, false, false, false, false]], 20)
    ∧ emitted (walking [0x0E, 0x04, 0xFF, 0xFF, 0x01, 0x00])
      = some ([.sysCap 0xFFFF 0x0100 (.replicate 8 true) (.replicate 8 false)], 20) := by decide

/-- L2.5 `0e 03 00 14 00`. -/
theorem test_sysCap_length : bounds (walking [0x0E, 0x03, 0x00, 0x14, 0x00]) = some (7, 3, 4, 4) := by decide

/-- L2.6: an IPv4 address without OID; the shortest value with a one-byte OID; the first two field errors. -/
theorem test_mgmtAddr :
    emitted (walking [0x10, 0x0C, 5, 1, 0xC0, 0x00, 0x02, 0x01, 2, 0, 0, 0, 3, 0])
      = some ([.mgmtAddr 5 1 [0xC0, 0x00, 0x02, 0x01] .dottedQuad 2 3 0 false []], 28)
    ∧ emitted (walking [0x10, 0x09, 1, 0, 0, 0, 0, 0, 0, 1, 0x7F])
      = some ([.mgmtAddr 1 0 [] .opaqueBytes 0 0 1 true [0x7F]], 25)
    ∧ ended (walking [0x10, 0x09, 0, 0, 0, 0, 0, 0, 0, 0, 0]) = some (.invalidFieldValue, 1, 14, 16)
    ∧ ended (walking [0x10, 0x09, 3, 1, 0x0A, 0, 0, 0, 0, 0, 0]) = some (.invalidFieldValue, 2, 14, 16) := by decide

/-- L2.6 and L1.6, the other field errors in the order of 60_exceptions.md R121. -/
theorem test_mgmtAddr_errors :
    ended (walking [0x10, 0x0C, 5, 1, 0xC0, 0x00, 0x02, 0x01, 4, 0, 0, 0, 3, 0]) = some (.invalidFieldValue, 3, 14, 22)
    ∧ ended (walking [0x10, 0x0C, 5, 1, 0xC0, 0x00, 0x02, 0x01, 0, 0, 0, 0, 7, 0]) = some (.invalidFieldValue, 4, 14, 22)
    ∧ ended (walking [0x10, 0x0C, 5, 1, 0xC0, 0x00, 0x02, 0x01, 2, 0, 0, 0, 3, 1]) = some (.invalidFieldValue, 5, 14, 27)
    ∧ ended (walking [0x10, 0x0D, 5, 1, 0xC0, 0x00, 0x02, 0x01, 2, 0, 0, 0, 3, 0, 0xEE])
      = some (.invalidFieldValue, 6, 14, 28) := by decide

/-- L2.6 `fe 06 00 80 c2 01 00 01`. -/
theorem test_orgSpecific :
    emitted (walking [0xFE, 0x06, 0x00, 0x80, 0xC2, 0x01, 0x00, 0x01])
      = some ([.orgSpecific [0x00, 0x80, 0xC2] 1 [0x00, 0x01]], 22) := by decide

/-- L2.6 `fe 03 00 12 0f`. -/
theorem test_orgSpecific_length : bounds (walking [0xFE, 0x03, 0x00, 0x12, 0x0F]) = some (127, 3, 4, 511) := by decide

/-- L2.6 `12 02 de ad` and `12 00`. -/
theorem test_unimplemented :
    emitted (walking [0x12, 0x02, 0xDE, 0xAD]) = some ([.unimplemented [0xDE, 0xAD]], 18)
    ∧ emitted (walking [0x12, 0x00]) = some ([.unimplemented []], 16) := by decide

/-! ## The options this hardware does not use, the host's operations, and the text functions -/

/-- This hardware with both decoder options and `STOP_AT_END` turned over, and a frame of at most 100 bytes. -/
def otherParams : Params where
  maxFrameLen := 100
  stopAtEnd := true
  chassisIdField := .firstSix
  mgmtTrailing := .ignore

/-- What one block step at `otherParams` emitted. -/
def emittedOther (s : State) : Option (List RecordBody × Nat × FrameOutcome) :=
  match stepWith otherParams s with
  | .next t => some (t.out.map (·.body), t.cursor, t.outcome)
  | .fault _ => none
  | .refused _ => none

/-- L2.3 `00 00 00 00`, L2.5 `02 08 07 …` and L2.6 `10 0d …` under the other settings. -/
theorem test_other_params :
    emittedOther (walking [0x00, 0x00, 0x00, 0x00]) = some ([.endLldpdu], 16, .ok)
    ∧ emittedOther (walking [0x02, 0x08, 7, 1, 2, 3, 4, 5, 6, 7])
      = some ([.chassisId 7 (.named 7) [1, 2, 3, 4, 5, 6] .hexPlain], 24, .none)
    ∧ emittedOther (walking [0x10, 0x0D, 5, 1, 0xC0, 0x00, 0x02, 0x01, 2, 0, 0, 0, 3, 0, 0xEE])
      = some ([.mgmtAddr 5 1 [0xC0, 0x00, 0x02, 0x01] .dottedQuad 2 3 0 false []], 29, .none) := by decide

/-- L2.7: START(101) with `MAX_FRAME_LEN = 100`, START in WALK, and RESET in WALK. -/
theorem test_host_ops :
    hostOp otherParams (.start 101) State.reset = .refused .frameTooLong
    ∧ hostOp otherParams (.start 2) (walking [0x00]) = .refused .startDuringRun
    ∧ hostOp otherParams .reset (walking []) = .next State.reset := ⟨rfl, rfl, rfl⟩

/-- 70_reset_and_hazards.md R139: START on a frame that was never written, and on one whose source MAC was not written, is
refused; on the written envelope it begins the run, and so does START(0) on any FRAME (10_state.md R30). -/
theorem test_start_needs_a_written_frame :
    hostOp otherParams (.start 13) State.reset = .refused .frameNotWritten
    ∧ hostOp otherParams (.start 14)
        { State.reset with frame := Memory.writeBytes (Memory.writeBytes [] 0 (stdEnvelope.take 6)) 12 (stdEnvelope.drop 12) }
      = .refused .frameNotWritten
    ∧ hostOp otherParams (.start 14) { State.reset with frame := Memory.writeBytes [] 0 stdEnvelope }
      = .next (validating stdEnvelope)
    ∧ hostOp otherParams (.start 0) State.reset = .next (validating []) := ⟨rfl, rfl, rfl, rfl⟩

/-- 00_scope.md R5: `CURSOR_W` is the smallest `w` with `2^w > MAX_FRAME_LEN`. -/
theorem test_cursorW :
    otherParams.cursorW = 7 ∧ ({ otherParams with maxFrameLen := 127 } : Params).cursorW = 7
    ∧ ({ otherParams with maxFrameLen := 128 } : Params).cursorW = 8
    ∧ ({ otherParams with maxFrameLen := 0 } : Params).cursorW = 0 := by decide

/-- L2.4, the sequences that are well formed. -/
theorem test_utf8_valid :
    [[], [0x41], [0x00], [0xC3, 0xA9], [0xE2, 0x82, 0xAC], [0xE0, 0xA0, 0x80], [0xED, 0x9F, 0xBF], [0xEF, 0xBB, 0xBF],
      [0xF0, 0x9F, 0x98, 0x80], [0xF4, 0x8F, 0xBF, 0xBF]].all utf8Valid = true := by decide

/-- L2.4, the sequences that are not. -/
theorem test_utf8_invalid :
    [[0x80], [0xC3], [0xE2, 0x82], [0xC0, 0x80], [0xC1, 0xBF], [0xE0, 0x80, 0x80], [0xF0, 0x8F, 0xBF, 0xBF],
      [0xED, 0xA0, 0x80], [0xF4, 0x90, 0x80, 0x80], [0xF5, 0x80, 0x80, 0x80], [0xFF]].any utf8Valid = false := by decide

/-- L2.4: the host-side texts. -/
theorem test_render :
    renderHexColon [0xAA, 0xBB, 0xCC, 0xDD, 0xEE, 0xFF] = "aa:bb:cc:dd:ee:ff".toList
    ∧ renderHexPlain [0x73, 0x77, 0x31] = "737731".toList
    ∧ renderDottedQuad [0xC0, 0x00, 0x02, 0x01] = "192.0.2.1".toList ∧ renderDottedQuad [0x0A] = "10".toList := by decide

/-- L3 P3: the notation assembles to the bytes listed there. -/
theorem test_assemble :
    assemble [.lldpEth [0x00, 0x11, 0x22, 0x33, 0x44, 0x55], .chassisMac [0xAA, 0xBB, 0xCC, 0xDD, 0xEE, 0xFF],
      .tlvl 5 10 [0x73, 0x77]]
      = some (stdEnvelope ++ [0x02, 0x07, 0x04, 0xAA, 0xBB, 0xCC, 0xDD, 0xEE, 0xFF, 0x0A, 0x0A, 0x73, 0x77]) := by decide

/-! ## The host's two questions -/

/-- Right after reset, a placed word is the next step's instruction. -/
theorem test_withFetchWord :
    emitted (State.reset.withFetchWord 16 0x0602) = some ([.ttl 0], 18)
    ∧ emitted (State.reset.withFetchWord 16 0x1201) = some ([.unimplemented [0]], 17)
    ∧ (after (State.reset.withFetchWord 112 0x0180C200000E00112233445588CC)).map (·.phase) = some .walk := by decide

/-! ## Witnesses -/

/-- Reading back a block that was just written. -/
theorem readBytes_writeBytes (m : Memory) (a : Nat) (bs : List Byte) :
    (m.writeBytes a bs).readBytes a bs.length = some bs := by
  induction bs generalizing a with
  | nil => rfl
  | cons b bs ih =>
    have h : (Memory.write (m.writeBytes (a + 1) bs) a b).readBytes (a + 1) bs.length
        = (m.writeBytes (a + 1) bs).readBytes (a + 1) bs.length :=
      Memory.readBytes_congr fun i _ => Memory.read_write_other _ _ (by omega)
    simp [Memory.readBytes, Memory.writeBytes, Memory.read_write_same, h, ih]

/-- A TLV of any type and any value is ready in some state. -/
theorem walking_ready (t : TypeCode) (l : TlvLen) (v : List Byte) (h : v.length = l.toNat) :
    (walking (headerBytes t l ++ v)).tlvReady l v
    ∧ (walking (headerBytes t l ++ v)).frame.readBytes 14 2 = some (headerBytes t l) := by
  have hh : (headerBytes t l).length = 2 := rfl
  have hr := readBytes_writeBytes [] 14 (headerBytes t l ++ v)
  rw [List.length_append, hh] at hr
  obtain ⟨h1, h2⟩ := Memory.readBytes_add hr
  refine ⟨⟨rfl, ?_, ?_⟩, ?_⟩
  · show 14 + 2 + l.toNat ≤ 14 + (headerBytes t l ++ v).length
    rw [List.length_append, hh]
    omega
  · rw [h] at h2
    exact h2
  · exact h1

/-- A header of any type and length, at the start of a payload. -/
abbrev zeros (t : TypeCode) (l : TlvLen) : State := walking (headerBytes t l ++ List.replicate l.toNat 0)

/-- The hypotheses of the `raisesLengthErrors` clause of every decoder's statement, at the last length below the bounds and
the first above them. -/
theorem witness_raisesLengthErrors :
    (∀ t l, (zeros t l).tlvReady l (List.replicate l.toNat 0))
    ∧ (1 : TlvLen) > 0 ∧ ((6 : TlvLen) < 7 ∧ (257 : TlvLen) > 256) ∧ ((0 : TlvLen) < 1 ∧ (256 : TlvLen) > 255)
    ∧ ((1 : TlvLen) < 2 ∧ (3 : TlvLen) > 2) ∧ ((3 : TlvLen) < 4 ∧ (5 : TlvLen) > 4) ∧ ((8 : TlvLen) < 9 ∧ (168 : TlvLen) > 167) :=
  ⟨fun t l => (walking_ready t l _ (List.length_replicate ..)).1, by decide⟩

/-- The longest frame the parameters allow, written whole. -/
theorem longest_frame_written : (Memory.writeBytes [] 0 (List.replicate 100 0)).written 100 = true := by
  have h := readBytes_writeBytes [] 0 (List.replicate 100 0)
  rw [List.length_replicate] at h
  exact Option.isSome_iff_exists.2 ⟨_, h⟩

/-- The longest frame the parameters allow, written whole; one byte more; the last byte missing; and a run in progress. -/
theorem witness_HostStartBeginsARun :
    (State.reset.phase = .idle ∧ 100 ≤ otherParams.maxFrameLen
      ∧ ∀ a < 100, ((Memory.writeBytes [] 0 (List.replicate 100 0)).read a).isSome)
    ∧ otherParams.maxFrameLen < 101
    ∧ (13 < 14 ∧ (Memory.writeBytes [] 0 (stdEnvelope.take 13)).read 13 = none)
    ∧ (walking []).phase = .walk ∧ (validating []).phase = .validate :=
  ⟨⟨rfl, by decide, Memory.written_iff.1 longest_frame_written⟩, by decide, by decide, rfl, rfl⟩

theorem witness_HostFrameWriteLandsOnlyOutsideARun :
    (State.reset.phase = .idle ∧ 126 + [0x00, (0x01 : Byte)].length ≤ 2 ^ otherParams.cursorW
      ∧ 2 ^ otherParams.cursorW < 127 + [0x00, (0x01 : Byte)].length)
    ∧ (walking []).phase = .walk := by decide

theorem witness_OnlyAnOkRunGivesAnLldpFrame :
    ({ State.reset with phase := .done, outcome := .ok }.phase = .done
      ∧ { State.reset with phase := .done, outcome := .ok }.outcome = .ok)
    ∧ ¬ (State.reset.phase = .done ∧ State.reset.outcome = .ok) := by decide

theorem witness_OpcodeMapFollowsTheRegistryTable :
    (0x01FF : BitVec 16) &&& 0xFE00 = 0x0000 ∧ (0x0200 : BitVec 16) &&& 0xFE00 = 0x0200
    ∧ (0x05FF : BitVec 16) &&& 0xFE00 = 0x0400 ∧ (0x0600 : BitVec 16) &&& 0xFE00 = 0x0600
    ∧ (0x09FF : BitVec 16) &&& 0xFE00 = 0x0800 ∧ (0x0A00 : BitVec 16) &&& 0xFE00 = 0x0A00
    ∧ (0x0DFF : BitVec 16) &&& 0xFE00 = 0x0C00 ∧ (0x0E00 : BitVec 16) &&& 0xFE00 = 0x0E00
    ∧ (0x11FF : BitVec 16) &&& 0xFE00 = 0x1000 ∧ (0xFE00 : BitVec 16) &&& 0xFE00 = 0xFE00
    ∧ (0x1200 : BitVec 16).toNat / 512 = 9 ∧ (0xFDFF : BitVec 16).toNat / 512 = 126 := by decide

theorem witness_DecodeInvertsEncode :
    (Instr.unimplemented 9 511).wellFormed = true ∧ (Instr.unimplemented 126 0).wellFormed = true
    ∧ Instr.envelope.wellFormed = true := by decide

theorem witness_EnvelopeDecoderRejectsByName :
    (stdEnvelope.take 13).length < 14
    ∧ ((stdEnvelope.take 6).length = 6 ∧ ((stdEnvelope.drop 6).take 6).length = 6 ∧ ¬ ((0x88 : Byte) = 0x88 ∧ (0xCD : Byte) = 0xCC))
    ∧ [(0x01 : Byte), 0x80, 0xC2, 0x00, 0x00, 0x03] ≠ [0x01, 0x80, 0xC2, 0x00, 0x00, 0x0E] := by decide

theorem witness_StepRunsTheDecodedInstruction :
    (let s := walking [0x06, 0x02, 0x00, 0x78];
      s.blockMoves = true ∧ s.phase = .walk ∧ s.cursor + 2 ≤ s.frameLen ∧ s.frame.readBytes s.cursor 2 = some [0x06, 0x02]
      ∧ decode .tlvhdr16 [0x06, 0x02] = .instr (.ttl 2) [])
    ∧ (let s := validating stdEnvelope;
      s.blockMoves = true ∧ s.phase = .validate ∧ s.frame.readBytes 0 14 = some stdEnvelope
      ∧ decode .eth14 stdEnvelope = .instr .envelope [])
    ∧ { State.reset with turns := [.host (.start 0), .block] }.turns = .host (.start 0) :: [.block] := by decide

theorem witness_IdleAndDoneKeepEveryRegister :
    State.reset.blockMoves = true ∧ State.reset.phase = .idle
    ∧ { State.reset with phase := .done, turns := [.block] }.blockMoves = true := by decide

theorem witness_WalkEndsOkExactlyAtThePayloadEnd :
    (walking []).blockMoves = true ∧ (walking []).phase = .walk ∧ (walking []).cursor = (walking []).frameLen
    ∧ (walking []).outcome = .none ∧ ∃ s', step (walking []) = .next s' ∧ s'.outcome = .ok :=
  ⟨rfl, rfl, rfl, rfl, _, rfl, rfl⟩

theorem witness_OneByteLeftIsATruncatedHeader :
    (walking [0x00]).blockMoves = true ∧ (walking [0x00]).phase = .walk
    ∧ (walking [0x00]).cursor + 1 = (walking [0x00]).frameLen := by decide

/-- One value byte missing of one, and 511 missing of 511. -/
theorem witness_ValueTruncationComesBeforeDispatch :
    ((Instr.sysName 1).header? = some (5, 1) ∧ (walking [0x0A, 0x01]).phase = .walk
      ∧ (walking [0x0A, 0x01]).cursor + 2 ≤ (walking [0x0A, 0x01]).frameLen
      ∧ (walking [0x0A, 0x01]).frameLen < (walking [0x0A, 0x01]).cursor + 2 + (1 : TlvLen).toNat)
    ∧ (Instr.endLldpdu 511).header? = some (0, 511)
    ∧ (walking [0x01, 0xFF]).frameLen < (walking [0x01, 0xFF]).cursor + 2 + (511 : TlvLen).toNat := by decide

theorem witness_LldpEnvelopeEntersWalk :
    (validating stdEnvelope).phase = .validate ∧ 14 ≤ (validating stdEnvelope).frameLen
    ∧ (validating stdEnvelope).frame.readBytes 12 2 = some [0x88, 0xCC]
    ∧ (validating stdEnvelope).frame.readBytes 0 6 = some [0x01, 0x80, 0xC2, 0x00, 0x00, 0x0E] := by decide

theorem witness_BadEnvelopeEndsTheFrame :
    ((validating (stdEnvelope.take 13)).phase = .validate ∧ (validating (stdEnvelope.take 13)).frameLen < 14)
    ∧ (let s := validating (stdEnvelope.take 12 ++ [0x88, 0xCD]);
      14 ≤ s.frameLen ∧ s.frame.readBytes 12 2 = some [0x88, 0xCD] ∧ ¬ ((0x88 : Byte) = 0x88 ∧ (0xCD : Byte) = 0xCC))
    ∧ (let s := validating ([0x01, 0x80, 0xC2, 0x00, 0x00, 0x03] ++ stdEnvelope.drop 6);
      14 ≤ s.frameLen ∧ s.frame.readBytes 12 2 = some [0x88, 0xCC]
      ∧ s.frame.readBytes 0 6 = some [0x01, 0x80, 0xC2, 0x00, 0x00, 0x03]) := by decide

/-- Two frames with different source addresses: at the least frame and on the first TLV. -/
theorem witness_SourceMacIsNeverRead :
    (let s := validating stdEnvelope;
      let t := { s with frame := s.frame.writeBytes 6 [0xFF] };
      s.turns = [] ∧ s.sameRegisters t ∧ s.frame ≠ t.frame ∧ s.phase = .validate
      ∧ ∀ a, a < 6 ∨ 12 ≤ a → s.frame.read a = t.frame.read a)
    ∧ (walking [0x00, 0x00]).phase = .walk ∧ 14 ≤ (walking [0x00, 0x00]).cursor := by
  refine ⟨⟨rfl, rfl, by decide, rfl, fun a h => ?_⟩, rfl, by decide⟩
  exact (Memory.read_write_other _ (a := 6) _ (by omega)).symm

theorem witness_EndDecodesToAnEmptyRecord : (zeros 0 0).tlvReady 0 [] := (walking_ready 0 0 [] rfl).1

/-- A ready END TLV with its header at the cursor, and one with a length of 1 and of 511; both settings of the policy. -/
theorem witness_EndPolicyFollowsStopAtEnd :
    ((zeros 0 0).tlvReady 0 [] ∧ (zeros 0 0).frame.readBytes 14 2 = some [0x00, 0x00])
    ∧ ((zeros 0 511).tlvReady 511 (List.replicate 511 0) ∧ (zeros 0 511).frame.readBytes 14 2 = some (headerBytes 0 511))
    ∧ otherParams.stopAtEnd = true ∧ Config.params.stopAtEnd = false :=
  ⟨walking_ready 0 0 [] rfl, walking_ready 0 511 _ (List.length_replicate ..), rfl, rfl⟩

theorem witness_ChassisIdDecodes :
    (zeros 1 7).tlvReady 7 (0 :: List.replicate 6 0) ∧ (zeros 1 256).tlvReady 256 (0 :: List.replicate 255 0)
    ∧ otherParams.chassisIdField = .firstSix :=
  ⟨(walking_ready 1 7 _ rfl).1, (walking_ready 1 256 _ (List.length_replicate ..)).1, rfl⟩

theorem witness_PortIdDecodes :
    ((zeros 2 1).tlvReady 1 [0] ∧ utf8Valid [] = true)
    ∧ (zeros 2 255).tlvReady 255 (0 :: List.replicate 254 0)
    ∧ ((walking (headerBytes 2 2 ++ [0, 0xFF])).tlvReady 2 [0, 0xFF] ∧ utf8Valid [0xFF] = false) :=
  ⟨⟨(walking_ready 2 1 _ rfl).1, rfl⟩, (walking_ready 2 255 _ (List.length_replicate ..)).1,
    (walking_ready 2 2 _ rfl).1, by decide⟩

theorem witness_TtlDecodes : (zeros 3 2).tlvReady 2 [0, 0] := (walking_ready 3 2 _ rfl).1

theorem witness_TextTlvsDecode :
    ((zeros 4 0).tlvReady 0 [] ∧ utf8Valid [] = true) ∧ (zeros 6 255).tlvReady 255 (List.replicate 255 0)
    ∧ ((walking (headerBytes 5 1 ++ [0x80])).tlvReady 1 [0x80] ∧ utf8Valid [0x80] = false) :=
  ⟨⟨(walking_ready 4 0 _ rfl).1, rfl⟩, (walking_ready 6 255 _ (List.length_replicate ..)).1,
    (walking_ready 5 1 _ rfl).1, by decide⟩

theorem witness_SysCapDecodes : (zeros 7 4).tlvReady 4 [0, 0, 0, 0] := (walking_ready 7 4 _ rfl).1

/-- The shortest value (with an OID, and with the reserved interface subtype) and the longest one. -/
theorem witness_MgmtAddrDecodes :
    ((walking (headerBytes 8 9 ++ [1, 0, 0, 0, 0, 0, 0, 1, 0x7F])).tlvReady 9 (1 :: 0 :: [] ++ 0 :: 0 :: 0 :: 0 :: 0 :: 1 :: [0x7F])
      ∧ (1 : Byte).toNat = 1 + ([] : List Byte).length ∧ (1 : Byte).toNat = [(0x7F : Byte)].length
      ∧ (0 : Byte).toNat ≤ 3 ∧ ((0 : Byte) = 0 → (0 : Byte) = 0 ∧ (0 : Byte) = 0 ∧ (0 : Byte) = 0 ∧ (0 : Byte) = 0))
    ∧ ((walking (headerBytes 8 167 ++ (33 :: 2 :: List.replicate 32 0 ++ 3 :: 0 :: 0 :: 0 :: 7 :: 127 :: List.replicate 127 0))).tlvReady
        167 (33 :: 2 :: List.replicate 32 0 ++ 3 :: 0 :: 0 :: 0 :: 7 :: 127 :: List.replicate 127 0)
      ∧ (33 : Byte).toNat = 1 + (List.replicate 32 (0 : Byte)).length ∧ (127 : Byte).toNat = (List.replicate 127 (0 : Byte)).length) :=
  ⟨⟨(walking_ready 8 9 _ rfl).1, rfl, rfl, by decide⟩, (walking_ready 8 167 _ rfl).1, rfl, rfl⟩

/-- One value for each of the five clauses; the shortest lengths that reach it. -/
theorem witness_MgmtAddrFieldErrors :
    ((zeros 8 9).tlvReady 9 (List.replicate 9 0) ∧ (List.replicate 9 (0 : Byte))[0]? = some 0)
    ∧ ((walking (headerBytes 8 9 ++ [3, 0, 0, 0, 0, 0, 0, 0, 0])).tlvReady 9 [3, 0, 0, 0, 0, 0, 0, 0, 0]
      ∧ (9 : TlvLen).toNat < (3 : Byte).toNat + 7)
    ∧ ((walking (headerBytes 8 9 ++ [2, 0, 0, 4, 0, 0, 0, 0, 0])).tlvReady 9 [2, 0, 0, 4, 0, 0, 0, 0, 0]
      ∧ (2 : Byte).toNat + 7 ≤ (9 : TlvLen).toNat
      ∧ ([2, 0, 0, 4, 0, 0, 0, 0, 0].drop ((2 : Byte).toNat + 1)).take 6 = [4, 0, 0, 0, 0, (0 : Byte)])
    ∧ ((walking (headerBytes 8 9 ++ [2, 0, 0, 0, 0, 0, 0, 1, 0])).tlvReady 9 [2, 0, 0, 0, 0, 0, 0, 1, 0]
      ∧ ([2, 0, 0, 0, 0, 0, 0, 1, 0].drop ((2 : Byte).toNat + 1)).take 6 = [0, 0, 0, 0, 1, (0 : Byte)])
    ∧ ((walking (headerBytes 8 9 ++ [2, 0, 0, 3, 0, 0, 0, 0, 1])).tlvReady 9 [2, 0, 0, 3, 0, 0, 0, 0, 1]
      ∧ ([2, 0, 0, 3, 0, 0, 0, 0, 1].drop ((2 : Byte).toNat + 1)).take 6 = [3, 0, 0, 0, 0, (1 : Byte)]
      ∧ (9 : TlvLen).toNat < (2 : Byte).toNat + 7 + (1 : Byte).toNat) :=
  ⟨⟨(walking_ready 8 9 _ rfl).1, rfl⟩, ⟨(walking_ready 8 9 _ rfl).1, by decide⟩,
    ⟨(walking_ready 8 9 _ rfl).1, by decide⟩, ⟨(walking_ready 8 9 _ rfl).1, by decide⟩,
    (walking_ready 8 9 _ rfl).1, by decide⟩

theorem witness_MgmtAddrTrailingBytes :
    ((walking (headerBytes 8 9 ++ [1, 0, 0, 0, 0, 0, 0, 0, 0xEE])).tlvReady 9
        (1 :: 0 :: [] ++ 0 :: 0 :: 0 :: 0 :: 0 :: 0 :: [] ++ [0xEE])
      ∧ (walking (headerBytes 8 9 ++ [1, 0, 0, 0, 0, 0, 0, 0, 0xEE])).frame.readBytes 14 2 = some (headerBytes 8 9))
    ∧ ((1 : Byte).toNat = 1 + ([] : List Byte).length ∧ (0 : Byte).toNat = ([] : List Byte).length ∧ [(0xEE : Byte)] ≠ [])
    ∧ { otherParams with stopAtEnd := false }.mgmtTrailing = .ignore :=
  ⟨walking_ready 8 9 _ rfl, by decide, rfl⟩

theorem witness_OrgSpecificDecodes :
    (zeros 127 4).tlvReady 4 (0 :: 0 :: 0 :: 0 :: []) ∧ (zeros 127 511).tlvReady 511 (0 :: 0 :: 0 :: 0 :: List.replicate 507 0) :=
  ⟨(walking_ready 127 4 _ rfl).1, (walking_ready 127 511 _ (List.length_replicate ..)).1⟩

theorem witness_FallbackKeepsTheValueVerbatim :
    (9 ≤ (9 : TypeCode).toNat ∧ (zeros 9 0).tlvReady 0 [])
    ∧ ((126 : TypeCode).toNat ≤ 126 ∧ (zeros 126 511).tlvReady 511 (List.replicate 511 0)) :=
  ⟨⟨by decide, (walking_ready 9 0 _ rfl).1⟩, by decide, (walking_ready 126 511 _ (List.length_replicate ..)).1⟩

theorem witness_DecodersRaiseOnlyTheirOwnOutcomes :
    ([] : List Byte).length = (0 : TlvLen).toNat ∧ (List.replicate 511 (0 : Byte)).length = (511 : TlvLen).toNat :=
  ⟨rfl, List.length_replicate ..⟩

/-- A record of an implemented type and one of the fallback, each well formed. -/
theorem witness_KindAndSubtypeClassCodes :
    Record.ok { typeCode := 127, length := 4, tlvOffset := 14, body := .orgSpecific [0, 0, 0] 0 [] }
    ∧ Record.ok { typeCode := 126, length := 0, tlvOffset := 14, body := .unimplemented [] } :=
  ⟨⟨by decide, by decide⟩, by decide, by decide⟩

/-- The scalar values at the ends of the table's rows. -/
theorem witness_Utf8BytesAndCodePointsCorrespond :
    (∀ n ∈ [0, 0x7F, 0x80, 0x7FF, 0x800, 0xD7FF, 0xE000, 0xFFFF, 0x10000, 0x10FFFF],
      n < 0x110000 ∧ ¬ (0xD800 ≤ n ∧ n ≤ 0xDFFF))
    ∧ utf8Decode [0xF4, 0x8F, 0xBF, 0xBF] = some [0x10FFFF] := by decide

theorem witness_HexRenderingsDetermineTheBytes : renderHexColon [0x0A] = renderHexColon [0x0A] := rfl

theorem witness_NoInstructionWritesFrame : ∃ s', exec (.ttl 2) (walking [0x06, 0x02, 0x00, 0x78]) = .next s' := ⟨_, rfl⟩

theorem witness_PhaseMovesOnlyAsListed :
    (∃ s', step (validating stdEnvelope) = .next s') ∧ (validating stdEnvelope).blockMoves = true
    ∧ ∃ s', step { State.reset with turns := [.host .reset] } = .next s' :=
  ⟨⟨_, rfl⟩, rfl, _, rfl⟩

theorem witness_ErrorEndingsArePrecise :
    (walking [0x00]).blockMoves = true ∧ (walking [0x00]).outcome = .none
    ∧ ∃ s', step (walking [0x00]) = .next s' ∧ s'.outcome.isError = true :=
  ⟨rfl, rfl, _, rfl, rfl⟩

theorem witness_WalkEmitsOneRecordOrEnds :
    (walking [0x12, 0x00]).blockMoves = true ∧ (walking [0x12, 0x00]).phase = .walk
    ∧ ∃ s', step (walking [0x12, 0x00]) = .next s' :=
  ⟨rfl, rfl, _, rfl⟩

/-- A state that meets every invariant and steps. It meets the hypotheses of EveryStepKeepsTheCursorInvariants,
EveryStepKeepsTheErrorTable, EveryStepKeepsTheEndingInvariant, EveryStepKeepsTheRecordsWellFormed and
EveryStepKeepsFrameCanonical. -/
theorem witness_invariants :
    CursorInv (walking [0x12, 0x00]) ∧ StatusInv (walking [0x12, 0x00]) ∧ EndingInv (walking [0x12, 0x00])
    ∧ RecordsInv (walking [0x12, 0x00]) ∧ Memory.wf (walking [0x12, 0x00]).frame = true
    ∧ ∃ s', step (walking [0x12, 0x00]) = .next s' := by
  refine ⟨by decide, ⟨by decide, ⟨rfl, rfl, rfl, rfl, rfl, rfl, rfl⟩, by decide⟩, by decide, ⟨?_, trivial⟩, rfl, _, rfl⟩
  intro r h
  simp [walking, State.reset] at h

theorem witness_EveryStepKeepsFrameLenInBounds :
    (walking [0x12, 0x00]).frameLen ≤ otherParams.maxFrameLen ∧ ∃ s', stepWith otherParams (walking [0x12, 0x00]) = .next s' :=
  ⟨by decide, _, rfl⟩

/-- A frame as long as the parameter allows. -/
theorem witness_CursorWidthRegistersNeverOverflow :
    (zeros 9 84).frameLen = otherParams.maxFrameLen ∧ CursorInv (zeros 9 84) ∧ StatusInv (zeros 9 84) :=
  ⟨by decide, by decide, by decide, ⟨rfl, rfl, rfl, rfl, rfl, rfl, rfl⟩, by decide⟩

/-- A loaded frame in VALIDATE, and the state VALIDATE leaves it in. -/
theorem witness_BlockNeverStopsOnALoadedFrame :
    (let s := validating (stdEnvelope ++ [0x00, 0x00]); CursorInv s ∧ Loaded s ∧ RunLoaded s ∧ s.blockMoves = true)
    ∧ (let s := (validating (stdEnvelope ++ [0x00, 0x00])).enterWalk; CursorInv s ∧ Loaded s ∧ RunLoaded s) := by decide

/-- The block's step over a loaded frame, and a RESET that ends a run. -/
theorem witness_EveryStepKeepsTheRunLoaded :
    (RunLoaded (validating stdEnvelope) ∧ ∃ s', step (validating stdEnvelope) = .next s')
    ∧ (let s := { validating stdEnvelope with turns := [.host .reset] }; RunLoaded s ∧ ∃ s', step s = .next s') :=
  ⟨⟨by decide, _, rfl⟩, by decide, _, rfl⟩

theorem witness_EveryRunReachesDone :
    let s := validating (stdEnvelope ++ [0x00, 0x00])
    CursorInv s ∧ Loaded s ∧ s.turns = [] ∧ s.phase = .validate := by decide

/-- `MAX_FRAME_LEN` is open, so only START(0) is sure to be accepted: a run over no bytes, from two different states. -/
theorem witness_ARunDependsOnlyOnItsFrame :
    ∃ s t s0 t0 s' : State, s ≠ t ∧ s.turns = [] ∧ t.turns = [] ∧ (∀ a, a < 0 → s.frame.read a = t.frame.read a)
      ∧ hostOp Config.params (.start 0) s = .next s0 ∧ hostOp Config.params (.start 0) t = .next t0
      ∧ stepRun 1 s0 = .next s' := by
  refine ⟨State.reset, { State.reset with frame := [(0, 0)] }, startRun 0 State.reset,
    startRun 0 { State.reset with frame := [(0, 0)] }, (startRun 0 State.reset).raise .envelope { avail := 0 },
    by decide, rfl, rfl, ?_, ?_, ?_, rfl⟩
  · intro a h
    omega
  · simp [hostOp, hostStart, State.reset, Phase.running, Memory.written, Memory.readBytes]
  · simp [hostOp, hostStart, State.reset, Phase.running, Memory.written, Memory.readBytes]

end Sys2Proof.Tests
end

section
/-! PROOFS. The statements of 10_state.md on the run's life: START (R30) and the moves of `phase` (R14). -/

namespace Sys2Proof.Machine

theorem Phase.running_eq_false_iff {ph : Phase} : ph.running = false ↔ ph = .idle ∨ ph = .done := by
  cases ph <;> simp [Phase.running]

theorem Phase.running_eq_true_iff {ph : Phase} : ph.running = true ↔ ph = .validate ∨ ph = .walk := by
  cases ph <;> simp [Phase.running]

/-! START, one lemma per branch of `hostStart`. -/

theorem hostStart_of_running {p : Params} {n : Nat} {s : State} (hr : s.phase.running = true) :
    hostStart p n s = .refused .startDuringRun := by
  simp [hostStart, hr]

theorem hostStart_of_too_long {p : Params} {n : Nat} {s : State} (hr : s.phase.running = false)
    (hn : p.maxFrameLen < n) : hostStart p n s = .refused .frameTooLong := by
  simp [hostStart, hr, hn]

theorem hostStart_of_not_written {p : Params} {n : Nat} {s : State} (hr : s.phase.running = false)
    (hn : n ≤ p.maxFrameLen) (hw : s.frame.written n = false) : hostStart p n s = .refused .frameNotWritten := by
  simp [hostStart, hr, Nat.not_lt.2 hn, hw]

theorem hostStart_of_written {p : Params} {n : Nat} {s : State} (hr : s.phase.running = false)
    (hn : n ≤ p.maxFrameLen) (hw : s.frame.written n = true) : hostStart p n s = .next (startRun n s) := by
  simp [hostStart, hr, Nat.not_lt.2 hn, hw]

theorem Memory.written_eq_false_of_read_none {m : Memory} {n a : Nat} (ha : a < n) (hm : Memory.read m a = none) :
    m.written n = false := by
  rw [← Bool.not_eq_true, Memory.written_iff]
  intro h
  simpa [hm] using h a ha

/-- Settles O3: the four clauses are the four branches of `hostStart`. -/
theorem hostStartBeginsARun : Obligations.HostStartBeginsARun := by
  intro p n s
  refine ⟨fun hp hn hw => ?_, fun hp => ?_, fun hp hn => ?_, fun hp hn a ha hm => ?_⟩
  · exact hostStart_of_written (Phase.running_eq_false_iff.2 hp) hn (Memory.written_iff.2 hw)
  · exact hostStart_of_running (Phase.running_eq_true_iff.2 hp)
  · exact hostStart_of_too_long (Phase.running_eq_false_iff.2 hp) hn
  · exact hostStart_of_not_written (Phase.running_eq_false_iff.2 hp) hn (Memory.written_eq_false_of_read_none ha hm)

/-! The phase after a turn of the block and after a turn of the host. -/

/-- In IDLE and DONE the block's turn leaves the state as it is (log entry 5). -/
theorem blockTurn_of_not_running {s : State} (hp : s.phase = .idle ∨ s.phase = .done) : blockTurn s = .next s := by
  rcases hp with hp | hp <;> simp [blockTurn, hp]

/-- From VALIDATE and from WALK alike, a step of the block leads to WALK or DONE. -/
theorem blockTurn_phase_of_running {s s' : State} (hr : s.phase.running = true) (h : blockTurn s = .next s') :
    s'.phase = .walk ∨ s'.phase = .done := by
  rcases blockTurn_next h with ⟨hp, -⟩ | ⟨-, -, rfl⟩ | ⟨-, -, h⟩ | ⟨-, -, rfl⟩ | ⟨-, -, rfl⟩ | ⟨hp, -, t, l, -, h⟩
  · rw [Phase.running_eq_false_iff.2 hp] at hr
    cases hr
  · exact .inr rfl
  · rcases h with rfl | rfl | rfl
    · exact .inr rfl
    · exact .inr rfl
    · exact .inl rfl
  · exact .inr rfl
  · exact .inr rfl
  · rcases h with ⟨-, rfl⟩ | ⟨v, c, info, -, -, rfl⟩ | ⟨v, body, -, -, rfl⟩
    · exact .inr rfl
    · exact .inr rfl
    · exact .inl hp

/-- On a host turn the step is that host operation with the turn taken off. -/
theorem step_of_hostTurn {s : State} {op : HostOp} {rest : List Turn} (ht : s.turns = .host op :: rest) :
    step s = hostOp Config.params op s.afterTurn := by
  simp [step, State.afterTurn, ht]

/-- The moves of `phase` in a step of the block, the stutter in IDLE and DONE among them. -/
theorem blockTurn_phase_mem {s s' : State} (h : blockTurn s = .next s') :
    (s.phase, s'.phase) ∈ ([(.idle, .idle), (.done, .done), (.validate, .walk), (.validate, .done), (.walk, .walk),
      (.walk, .done)] : List (Phase × Phase)) := by
  by_cases hr : s.phase.running = true
  · have hto := blockTurn_phase_of_running hr h
    rcases Phase.running_eq_true_iff.1 hr with hp | hp <;> rcases hto with hp' | hp' <;> simp [hp, hp']
  · have hp := Phase.running_eq_false_iff.1 (Bool.eq_false_of_not_eq_true hr)
    rw [blockTurn_of_not_running hp] at h
    cases h
    rcases hp with hp | hp <;> simp [hp]

/-- Settles O40: a step is the block's move or a host operation, and each moves the phase as
`blockTurn_phase_mem` and `hostOp_next` say. -/
theorem phaseMovesOnlyAsListed : Obligations.PhaseMovesOnlyAsListed := by
  refine ⟨⟨rfl, rfl, rfl, rfl⟩, fun s s' h => ⟨fun hb hp => ?_, fun hb => ?_, fun op rest ht => ?_⟩⟩
  · rw [step_of_blockMoves hb, blockTurn_of_not_running (s := s.afterTurn) hp] at h
    exact (Host.Outcome.next.inj h).symm
  · rw [step_of_blockMoves hb] at h
    exact blockTurn_phase_mem (s := s.afterTurn) h
  · rw [step_of_hostTurn ht] at h
    rcases hostOp_next h with ⟨rfl, rfl⟩ | ⟨n, rfl, -, hr, -, rfl⟩ | ⟨a, bs, rfl, -, rfl⟩ | ⟨rfl | ⟨r, rfl⟩, rfl⟩
    · rfl
    · exact ⟨Phase.running_eq_false_iff.1 hr, rfl⟩
    · rfl
    · rfl
    · rfl

end Sys2Proof.Machine
end

section
/-! PROOFS. The statement of 20_memory.md on the block and FRAME: no instruction writes memory (R36). -/

namespace Sys2Proof.Machine

/-- The block has no output into memory (20_memory.md R36): FRAME, its length and the turns to come are left alone. -/
structure State.KeepsMemory (s s' : State) : Prop where
  frame : s'.frame = s.frame
  frameLen : s'.frameLen = s.frameLen
  turns : s'.turns = s.turns

/-! Each update an instruction makes keeps the memory. -/

theorem State.keepsMemory_finish (s : State) (e : Ending) : s.KeepsMemory (s.finish e) :=
  ⟨s.finish_frame e, s.finish_frameLen e, s.finish_turns e⟩

theorem State.keepsMemory_raise (s : State) (c : Cause) (info : ErrInfo) : s.KeepsMemory (s.raise c info) :=
  ⟨s.raise_frame c info, s.raise_frameLen c info, s.raise_turns c info⟩

theorem State.keepsMemory_enterWalk (s : State) : s.KeepsMemory s.enterWalk :=
  ⟨s.enterWalk_frame, s.enterWalk_frameLen, s.enterWalk_turns⟩

theorem State.keepsMemory_withRecord (s : State) (t : TypeCode) (l : TlvLen) (b : RecordBody) :
    s.KeepsMemory (s.withRecord t l b) :=
  ⟨s.withRecord_frame t l b, s.withRecord_frameLen t l b, s.withRecord_turns t l b⟩

/-! The two shared operations keep the memory, in each of the ways they answer. -/

theorem execEnvelope_keepsMemory {s s' : State} (h : execEnvelope s = .next s') : s.KeepsMemory s' := by
  rcases execEnvelope_next h with ⟨-, ⟨-, rfl⟩ | ⟨-, rfl | rfl | rfl⟩⟩
  · exact s.keepsMemory_raise _ _
  · exact s.keepsMemory_finish _
  · exact s.keepsMemory_finish _
  · exact s.keepsMemory_enterWalk

theorem runTlv_keepsMemory {decoder : Decoder} {t : TypeCode} {l : TlvLen} {s s' : State}
    (h : runTlv Config.params decoder t l s = .next s') : s.KeepsMemory s' := by
  rcases runTlv_next h with
    ⟨-, -, ⟨-, rfl⟩ | ⟨-, rfl⟩ | ⟨-, -, rfl⟩ | ⟨v, c, info, -, -, rfl⟩ | ⟨v, body, -, -, rfl⟩⟩
  · exact s.keepsMemory_finish _
  · exact s.keepsMemory_raise _ _
  · exact s.keepsMemory_raise _ _
  · exact s.keepsMemory_raise _ _
  · rw [commitRecord_params]
    exact s.keepsMemory_withRecord _ _ _

/-- Every instruction but ENVELOPE is the shared WALK operation, with some decoder; `exec_eq_runTlv` names the decoder where
the instruction is well formed. -/
theorem exec_eq_envelope_or_runTlv (i : Instr) (s : State) :
    exec i s = execEnvelope s ∨ ∃ decoder t l, exec i s = runTlv Config.params decoder t l s := by
  cases i
  case envelope => exact .inl rfl
  all_goals exact .inr ⟨_, _, _, rfl⟩

theorem exec_keepsMemory {i : Instr} {s s' : State} (h : exec i s = .next s') : s.KeepsMemory s' := by
  rcases exec_eq_envelope_or_runTlv i s with he | ⟨decoder, t, l, he⟩
  · exact execEnvelope_keepsMemory (he ▸ h)
  · exact runTlv_keepsMemory (he ▸ h)

/-- Settles O39: every instruction is ENVELOPE or the shared WALK operation, and neither writes memory. -/
theorem noInstructionWritesFrame : Obligations.NoInstructionWritesFrame := by
  intro i s s' h
  obtain ⟨hframe, hlen, hturns⟩ := exec_keepsMemory h
  exact ⟨hframe, fun a => by rw [hframe], hlen, hturns⟩

end Sys2Proof.Machine
end

section
/-! PROOFS. The statements of 30_encoding.md on the type registry (R56) and the codes of records (R62). -/

namespace Sys2Proof

theorem decodeHeader_snd (h : BitVec 16) : (decodeHeader h).2 = h.setWidth 9 := by
  apply BitVec.eq_of_toNat_eq
  rw [decodeHeader_length, BitVec.toNat_setWidth]

theorem decodeHeader_fst_eq_ofNat (h : BitVec 16) : (decodeHeader h).1 = BitVec.ofNat 7 (h.toNat / 512) := by
  rw [← decodeHeader_typeCode, BitVec.ofNat_toNat, BitVec.setWidth_eq]

/-- The mask of the registry keeps exactly the type code (30_encoding.md R53, R56). -/
theorem decodeHeader_fst_mask (h : BitVec 16) : (decodeHeader (h &&& 0xFE00)).1 = (decodeHeader h).1 := by
  have hmask : (0xFE00 : BitVec 16) >>> 9 = (BitVec.allOnes 7).setWidth 16 := by decide
  ext i hi
  simp only [decodeHeader, BitVec.ushiftRight_and_distrib, hmask, BitVec.getElem_setWidth, BitVec.getLsbD_and,
    BitVec.getLsbD_setWidth, BitVec.getLsbD_allOnes]
  simp [hi, show i < 16 by omega]

theorem decodeHeaderWord_eq (h : BitVec 16) : decodeHeaderWord h = instrOfHeader (decodeHeader h).1 (h.setWidth 9) := by
  rw [decodeHeaderWord, decodeHeader_snd]

end Sys2Proof

namespace Sys2Proof.Machine

/-- A row of the registry holds when the opcode map sends the type code of its pattern to its instruction. -/
theorem headerSelects_of_instrOfHeader {pattern : BitVec 16} {mk : TlvLen → Instr}
    (hmk : ∀ l, instrOfHeader (decodeHeader pattern).1 l = mk l) : headerSelects pattern mk := by
  rintro h rfl
  rw [decodeHeaderWord_eq, ← decodeHeader_fst_mask, hmk]

/-- Settles O10: a row by the type code of its pattern, the fallback by its range of type codes. -/
theorem opcodeMapFollowsTheRegistryTable : Obligations.OpcodeMapFollowsTheRegistryTable := by
  refine ⟨headerSelects_of_instrOfHeader fun _ => rfl, headerSelects_of_instrOfHeader fun _ => rfl,
    headerSelects_of_instrOfHeader fun _ => rfl, headerSelects_of_instrOfHeader fun _ => rfl,
    headerSelects_of_instrOfHeader fun _ => rfl, headerSelects_of_instrOfHeader fun _ => rfl,
    headerSelects_of_instrOfHeader fun _ => rfl, headerSelects_of_instrOfHeader fun _ => rfl,
    headerSelects_of_instrOfHeader fun _ => rfl, headerSelects_of_instrOfHeader fun _ => rfl, fun h hlo hhi => ?_⟩
  have hf : (decodeHeader h).1.isFallback = true := by
    simp only [TypeCode.isFallback, decodeHeader_typeCode, hlo, hhi, decide_true, Bool.and_true]
  rw [decodeHeaderWord_eq, Laws.OpcodeMap.unimplemented _ _ hf _ _ rfl, decodeHeader_fst_eq_ofNat]

/-- The kind of a well-formed record: its type code, or 128 for the fallback (30_encoding.md R62). -/
theorem Record.ok_kind {r : Record} (h : r.ok) :
    (r.typeCode.isFallback = false ∧ r.kind.toNat = r.typeCode.toNat)
    ∨ (r.typeCode.isFallback = true ∧ r.kind = 128) := by
  obtain ⟨t, l, o, body⟩ := r
  obtain ⟨-, h⟩ := h
  cases body
  case endLldpdu => obtain rfl : t = 0 := h; exact .inl ⟨rfl, rfl⟩
  case ttl => obtain rfl : t = 3 := h; exact .inl ⟨rfl, rfl⟩
  case unimplemented => exact .inr ⟨h.1, rfl⟩
  all_goals obtain ⟨rfl, -⟩ := h; exact .inl ⟨rfl, rfl⟩

/-- Settles O35: the kind by the body of the record, the class by the subtype against 8. -/
theorem kindAndSubtypeClassCodes : Obligations.KindAndSubtypeClassCodes := by
  refine ⟨fun r h => ?_, fun sub => ?_⟩
  · rcases Record.ok_kind h with ⟨hf, hk⟩ | ⟨hf, hk⟩
    · simp [hf, hk]
    · refine ⟨by simp [hf], fun _ => ⟨hk, fun t => ?_⟩⟩
      rw [hk]
      exact Nat.ne_of_gt t.isLt
  · rw [subtypeClass_code]
    split <;> omega

end Sys2Proof.Machine
end

section
/-! PROOFS. The statement of 30_encoding.md that the source MAC is never read (R50): the block's step commutes with an
exchange of FRAME for one that agrees with it on the frame's bytes outside the source MAC. -/

namespace Sys2Proof.Machine

/-- The same registers over another FRAME. -/
def State.withFrame (s : State) (m : Memory) : State := { s with frame := m }

/-- The same answer of a step, a next state over another FRAME. -/
def answerWithFrame (m : Memory) : StepResult → StepResult
  | .next s => .next (s.withFrame m)
  | .fault f => .fault f
  | .refused r => .refused r

/-- Another FRAME agrees with the state's own on every byte of the frame but the source MAC (30_encoding.md R48). -/
def State.AgreesOutsideSourceMac (s : State) (m : Memory) : Prop :=
  ∀ a < s.frameLen, a < 6 ∨ 12 ≤ a → Memory.read s.frame a = Memory.read m a

section
variable (s : State) (m : Memory)

@[simp] theorem State.withFrame_phase : (s.withFrame m).phase = s.phase := rfl
@[simp] theorem State.withFrame_frameLen : (s.withFrame m).frameLen = s.frameLen := rfl
@[simp] theorem State.withFrame_cursor : (s.withFrame m).cursor = s.cursor := rfl
@[simp] theorem State.withFrame_frame : (s.withFrame m).frame = m := rfl

@[simp] theorem answerWithFrame_next : answerWithFrame m (.next s) = .next (s.withFrame m) := rfl
@[simp] theorem answerWithFrame_refused (r : Refusal) : answerWithFrame m (.refused r) = .refused r := rfl

/-! The endings of a frame do not look at FRAME. -/

@[simp] theorem State.withFrame_finish (e : Ending) : (s.withFrame m).finish e = (s.finish e).withFrame m := rfl
@[simp] theorem State.withFrame_raise (c : Cause) (info : ErrInfo) :
    (s.withFrame m).raise c info = (s.raise c info).withFrame m := rfl

@[simp] theorem State.withFrame_halt (h : Halt) : (s.withFrame m).halt h = answerWithFrame m (s.halt h) := by
  cases h <;> rfl

@[simp] theorem walkEnding_withFrame : walkEnding (s.withFrame m) = (walkEnding s).map (·.withFrame m) := by
  by_cases h0 : s.frameLen - s.cursor = 0
  · simp [walkEnding, h0]
  · by_cases h1 : s.frameLen - s.cursor = 1 <;> simp [walkEnding, h0, h1]

end

/-! Reads outside the source MAC. -/

section
variable {s : State} {m : Memory} {addr n : Nat}

theorem State.bytes_withFrame (hm : s.AgreesOutsideSourceMac m) (hr : addr + n ≤ 6 ∨ 12 ≤ addr) :
    (s.withFrame m).bytes addr n = s.bytes addr n := by
  by_cases hlen : s.frameLen < addr + n
  · simp [State.bytes, hlen]
  · have heq : s.frame.readBytes addr n = m.readBytes addr n :=
      Memory.readBytes_congr fun i hi => hm (addr + i) (by omega) (by omega)
    simp [State.bytes, hlen, heq]

theorem State.memRead_withFrame (hm : s.AgreesOutsideSourceMac m) (hr : addr + n ≤ 6 ∨ 12 ≤ addr) :
    (s.withFrame m).memRead addr n = s.memRead addr n := by
  rw [State.memRead, State.bytes_withFrame hm hr, State.memRead]

end

/-! The block's two operations and its turn. -/

section
variable {s : State} {m : Memory} (hm : s.AgreesOutsideSourceMac m)
include hm

theorem execEnvelope_withFrame : execEnvelope (s.withFrame m) = answerWithFrame m (execEnvelope s) := by
  simp only [execEnvelope, State.memRead_withFrame hm (addr := 12) (n := 2) (by omega),
    State.bytes_withFrame hm (addr := 0) (n := 6) (by omega), State.withFrame_phase, State.withFrame_frameLen]
  split
  · rfl
  · split
    · rfl
    · split
      · exact s.withFrame_halt m _
      · split
        · rfl
        · split
          · exact s.withFrame_halt m _
          · split <;> rfl

theorem runHeader_withFrame (decoder : Decoder) (t : TypeCode) (l : TlvLen) (hc : 14 ≤ s.cursor) :
    runHeader Config.params decoder t l (s.withFrame m)
      = answerWithFrame m (runHeader Config.params decoder t l s) := by
  simp only [runHeader, commitRecord_params, State.withFrame_frameLen, State.withFrame_cursor,
    State.bytes_withFrame hm (addr := s.cursor + 2) (n := l.toNat) (by omega)]
  split
  · rfl
  · split
    · exact s.withFrame_halt m _
    · split
      · exact s.withFrame_halt m _
      · rfl

theorem runTlv_withFrame (decoder : Decoder) (t : TypeCode) (l : TlvLen) (hc : 14 ≤ s.cursor) :
    runTlv Config.params decoder t l (s.withFrame m) = answerWithFrame m (runTlv Config.params decoder t l s) := by
  simp only [runTlv, State.withFrame_phase, State.withFrame_frameLen, State.withFrame_cursor, walkEnding_withFrame]
  split
  · rfl
  · split
    · rfl
    · cases walkEnding s with
      | some s' => rfl
      | none => exact runHeader_withFrame hm decoder t l hc

theorem exec_decodeHeaderWord_withFrame (h : BitVec 16) (hc : 14 ≤ s.cursor) :
    exec (decodeHeaderWord h) (s.withFrame m) = answerWithFrame m (exec (decodeHeaderWord h) s) := by
  obtain ⟨hi, hwf⟩ := decodeHeaderWord_header? h
  rw [exec_eq_runTlv _ hi hwf, exec_eq_runTlv _ hi hwf]
  exact runTlv_withFrame hm _ _ _ hc

/-- The block's turn answers alike over a FRAME that differs at the source MAC only. -/
theorem blockTurn_withFrame (hc : s.phase = .walk → 14 ≤ s.cursor) :
    blockTurn (s.withFrame m) = answerWithFrame m (blockTurn s) := by
  cases hp : s.phase
  case idle | done => simp only [blockTurn, State.withFrame_phase, hp, answerWithFrame_next]
  case validate =>
    simp only [blockTurn, State.withFrame_phase, hp]
    exact execEnvelope_withFrame hm
  case walk =>
    have hc := hc hp
    simp only [blockTurn, fetchTlv, State.withFrame_phase, State.withFrame_frameLen, State.withFrame_cursor, hp,
      walkEnding_withFrame, State.memRead_withFrame hm (addr := s.cursor) (n := 2) (by omega)]
    by_cases hl : s.frameLen < s.cursor
    · simp only [if_pos hl, State.withFrame_halt]
    · simp only [if_neg hl]
      cases walkEnding s with
      | some s' => rfl
      | none =>
        cases s.memRead s.cursor 2 with
        | error h => exact s.withFrame_halt m h
        | ok h => exact exec_decodeHeaderWord_withFrame hm h hc

end

/-- With no turn listed the block moves. -/
theorem step_of_turns_nil {s : State} (ht : s.turns = []) : step s = blockTurn s := by
  simp only [step, ht]

/-- A state with the same registers and the same turns differs in FRAME alone. -/
theorem State.eq_withFrame_of_sameRegisters {s t : State} (ht : s.turns = t.turns) (h : s.sameRegisters t) :
    t = s.withFrame t.frame := by
  rw [State.sameRegisters, ← ht] at h
  exact h.symm

theorem State.sameRegisters_withFrame (s : State) (m : Memory) : s.sameRegisters (s.withFrame m) := rfl

/-- Settles O21: the second state is the first over another FRAME, and `blockTurn_withFrame` gives its answer. -/
theorem sourceMacIsNeverRead : Obligations.SourceMacIsNeverRead := by
  intro s t hs ht hreg hframe hc
  obtain ⟨m, rfl⟩ : ∃ m, t = s.withFrame m := ⟨_, State.eq_withFrame_of_sameRegisters (hs.trans ht.symm) hreg⟩
  have hstep : step (s.withFrame m) = answerWithFrame m (step s) := by
    rw [step_of_turns_nil hs, step_of_turns_nil ht]
    exact blockTurn_withFrame (fun a _ ha => hframe a ha) hc
  refine ⟨fun s' h => ⟨s'.withFrame m, ?_, s'.sameRegisters_withFrame m⟩, fun r h => ?_⟩
  · rw [hstep, h, answerWithFrame_next]
  · rw [hstep, h, answerWithFrame_refused]

end Sys2Proof.Machine
end

section
/-! PROOFS. The statements of 40_frame_validator.md: the payload is handed over (R67), and the endings of a bad envelope in
their priority (R65, R66). -/

namespace Sys2Proof.Machine

/-- The EtherType read from the frame is LLDP's exactly when its two bytes are `88 CC` (30_encoding.md R51). -/
theorem joinBe16_eq_lldpEtherType_iff {hi lo : Byte} :
    joinBe16 hi lo = lldpEtherType ↔ hi = 0x88 ∧ lo = 0xCC := by
  constructor
  · intro h
    have hlo := lo.isLt
    have hn : hi.toNat * 256 + lo.toNat = 0x88 * 256 + 0xCC := by rw [← joinBe16_toNat, h]; rfl
    exact ⟨BitVec.eq_of_toNat_eq (show hi.toNat = 0x88 by omega), BitVec.eq_of_toNat_eq (show lo.toNat = 0xCC by omega)⟩
  · rintro ⟨rfl, rfl⟩
    rfl

/-! What `execEnvelope` answers in VALIDATE, one lemma per check: the length, the EtherType, the destination MAC. -/

section
variable {s : State} (hp : s.phase = .validate)
include hp

theorem execEnvelope_of_short (hl : s.frameLen < 14) :
    execEnvelope s = .next (s.raise .envelope { avail := s.frameLen }) := by
  simp [execEnvelope, hp, envelopeLen, hl]

variable (hl : 14 ≤ s.frameLen)
include hl

theorem execEnvelope_of_wrong_etherType {hi lo : Byte} (het : s.frame.readBytes 12 2 = some [hi, lo])
    (hne : ¬ (hi = 0x88 ∧ lo = 0xCC)) : execEnvelope s = .next (s.finish .notLldpEtherType) := by
  have hread : s.memRead 12 2 = .ok (joinBe16 hi lo) := State.memRead_two hl het
  have hne : joinBe16 hi lo ≠ lldpEtherType := mt joinBe16_eq_lldpEtherType_iff.1 hne
  simp [execEnvelope, hp, envelopeLen, Nat.not_lt.2 hl, hread, hne]

/-- With LLDP's EtherType only the destination MAC decides (40_frame_validator.md R66, R67). -/
theorem execEnvelope_of_lldp_etherType {dst : List Byte} (het : s.frame.readBytes 12 2 = some [0x88, 0xCC])
    (hdst : s.frame.readBytes 0 6 = some dst) :
    execEnvelope s = if dst ≠ lldpDstMac then .next (s.finish .notLldpDstMac) else .next s.enterWalk := by
  have hread : s.memRead 12 2 = .ok lldpEtherType := State.memRead_two hl het
  have hbytes : s.bytes 0 6 = .ok dst := State.bytes_eq_ok.2 ⟨by omega, hdst⟩
  simp [execEnvelope, hp, envelopeLen, Nat.not_lt.2 hl, hread, hbytes]

end

/-- Settles O19: with the EtherType and the destination right, `execEnvelope` enters WALK. -/
theorem lldpEnvelopeEntersWalk : Obligations.LldpEnvelopeEntersWalk := by
  intro s hp hl het hdst
  exact (execEnvelope_of_lldp_etherType hp hl het hdst).trans (if_neg (not_not.2 rfl))

/-- Settles O20: the three clauses are the three endings of `execEnvelope`, in the order of its checks. -/
theorem badEnvelopeEndsTheFrame : Obligations.BadEnvelopeEndsTheFrame := by
  intro s hp
  refine ⟨fun hl => ?_, fun hi lo hl het hne => ?_, fun dst hl het hdst hne => ?_⟩
  · exact execEnvelope_of_short hp hl
  · exact execEnvelope_of_wrong_etherType hp hl het hne
  · exact (execEnvelope_of_lldp_etherType hp hl het hdst).trans (if_pos hne)

end Sys2Proof.Machine
end

section
/-! PROOFS. The statement of 41_header_and_sequencer.md on the header packer: the round-trip law and the bytes on the wire
(R69). -/

namespace Sys2Proof

/-- A 16-bit word on the wire is its high byte, then its low one (20_memory.md R37). -/
theorem bytesOfNat_two (h : BitVec 16) : bytesOfNat 2 h.toNat = [(h >>> 8).setWidth 8, h.setWidth 8] := by
  have high : BitVec.ofNat 8 (h.toNat / 256) = (h >>> 8).setWidth 8 := by
    apply BitVec.eq_of_toNat_eq
    simp [Nat.shiftRight_eq_div_pow]
  have low : BitVec.ofNat 8 h.toNat = h.setWidth 8 := BitVec.eq_of_toNat_eq (by simp)
  simp only [bytesOfNat, pow_one, pow_zero, Nat.div_one, high, low]

theorem encodeHeader_decodeHeader (h : BitVec 16) : encodeHeader (decodeHeader h).1 (decodeHeader h).2 = h := by
  apply BitVec.eq_of_toNat_eq
  rw [encodeHeader_toNat, decodeHeader_typeCode, decodeHeader_length]
  exact Nat.div_add_mod' h.toNat 512

/-- Settles O9: the codec's inverse laws, its value and its two bytes. -/
theorem headerCodecRoundTrips : Obligations.HeaderCodecRoundTrips :=
  ⟨fun t l => ⟨decodeHeader_encodeHeader t l, encodeHeader_toNat t l, bytesOfNat_two (encodeHeader t l)⟩,
    encodeHeader_decodeHeader⟩

end Sys2Proof
end

section
/-! PROOFS. The statements of 41_header_and_sequencer.md on one WALK step: its endings before and after a header (R71 to
R73), the record or the ending it leaves (R75), and the END policy (R76). -/

namespace Sys2Proof.Machine

/-! What the block's WALK turn answers, one lemma per case of what is left of the frame. -/

section
variable {s : State} (hp : s.phase = .walk)
include hp

theorem blockTurn_of_payload_end (hc : s.cursor = s.frameLen) : blockTurn s = .next (s.finish .ok) := by
  have hlt : ¬ s.frameLen < s.cursor := by omega
  have he : walkEnding s = some (s.finish .ok) := (walkEnding_eq_some (by omega)).2 (.inl ⟨hc, rfl⟩)
  simp only [blockTurn, hp, fetchTlv, if_neg hlt, he]

theorem blockTurn_of_one_byte_left (hc : s.cursor + 1 = s.frameLen) :
    blockTurn s = .next (s.raise .header { tlvOffset := s.cursor, avail := 1, pos := s.cursor }) := by
  have hlt : ¬ s.frameLen < s.cursor := by omega
  have he := (walkEnding_eq_some (s := s) (by omega)).2 (.inr ⟨hc, rfl⟩)
  simp only [blockTurn, hp, fetchTlv, if_neg hlt, he]

/-- A header in the frame is dispatched to the registry's decoder of its type (41_header_and_sequencer.md R74). -/
theorem blockTurn_of_header {t : TypeCode} {l : TlvLen} (hh : s.cursor + 2 ≤ s.frameLen)
    (hr : s.frame.readBytes s.cursor 2 = some (headerBytes t l)) :
    blockTurn s = runTlv Config.params (registry Config.params t) t l s := by
  obtain ⟨b0, b1, hbytes, hjoin⟩ := joinBe16_bytesOfNat (encodeHeader t l)
  rw [headerBytes, hbytes] at hr
  obtain ⟨hi, hwf⟩ := decodeHeaderWord_header? (encodeHeader t l)
  rw [decodeHeader_encodeHeader] at hi
  simp only [blockTurn, hp, fetchTlv_eq_instr hh hr, hjoin]
  exact exec_eq_runTlv s hi hwf

/-- The three ways a WALK turn ends, whatever the error: the payload's end, an error ending, or one record of the header at
the cursor. -/
theorem walkTurn_ends_or_emits {s' : State} (h : blockTurn s = .next s') :
    (s.cursor = s.frameLen ∧ s' = s.finish .ok)
    ∨ (∃ c info, s' = s.raise c info)
    ∨ ∃ t l body, s.frame.readBytes s.cursor 2 = some (headerBytes t l) ∧ s.cursor + 2 + l.toNat ≤ s.frameLen
      ∧ s' = s.withRecord t l body := by
  rcases blockTurn_next h with ⟨hp', -⟩ | ⟨hp', -⟩ | ⟨hp', -⟩ | ⟨-, hend⟩ | ⟨-, -, rfl⟩ | ⟨-, -, t, l, hr, h⟩
  · simp [hp] at hp'
  · simp [hp] at hp'
  · simp [hp] at hp'
  · exact .inl hend
  · exact .inr (.inl ⟨_, _, rfl⟩)
  · rcases h with ⟨-, rfl⟩ | ⟨v, c, info, -, -, rfl⟩ | ⟨v, body, ⟨-, hlen, -⟩, -, rfl⟩
    · exact .inr (.inl ⟨_, _, rfl⟩)
    · exact .inr (.inl ⟨c, info, rfl⟩)
    · exact .inr (.inr ⟨t, l, body, hr, hlen, rfl⟩)

end

theorem Cause.outcome_isError (c : Cause) : c.outcome.isError = true := by
  cases c <;> rfl

/-- Settles O16: of the three ways a WALK turn ends, only the payload's end writes `OK`. -/
theorem walkEndsOkExactlyAtThePayloadEnd : Obligations.WalkEndsOkExactlyAtThePayloadEnd := by
  intro s hb hp
  rw [step_of_blockMoves hb]
  refine ⟨blockTurn_of_payload_end (s := s.afterTurn) hp, fun s' hnone h hok => ?_⟩
  rcases walkTurn_ends_or_emits (s := s.afterTurn) hp h with ⟨hc, rfl⟩ | ⟨c, info, rfl⟩ | ⟨t, l, body, -, -, rfl⟩
  · exact ⟨hc, rfl⟩
  · have herr := c.outcome_isError
    rw [State.raise_outcome] at hok
    simp [hok, FrameOutcome.isError] at herr
  · rw [State.withRecord_outcome, State.afterTurn_outcome, hnone] at hok
    cases hok

/-- Settles O17: the ending comes before any read. -/
theorem oneByteLeftIsATruncatedHeader : Obligations.OneByteLeftIsATruncatedHeader := by
  intro s hb hp hc
  rw [step_of_blockMoves hb]
  exact blockTurn_of_one_byte_left (s := s.afterTurn) hp hc

/-- Every TLV instruction, well formed or not, is the shared WALK operation on its own header with some decoder. -/
theorem exec_eq_runTlv_of_header? {i : Instr} {t : TypeCode} {l : TlvLen} (s : State) (hi : i.header? = some (t, l)) :
    ∃ decoder, exec i s = runTlv Config.params decoder t l s := by
  cases i
  case envelope => cases hi
  all_goals (cases hi; exact ⟨_, rfl⟩)

/-- Settles O18: the shared WALK operation checks the value's length before it calls its decoder, whichever that is. -/
theorem valueTruncationComesBeforeDispatch : Obligations.ValueTruncationComesBeforeDispatch := by
  intro i t l s hi hp hh ht
  obtain ⟨decoder, he⟩ := exec_eq_runTlv_of_header? s hi
  rw [he, runTlv_truncated hp hh ht, State.raise_eq_endedWith]
  rfl

/-- Settles O42: the three ways a WALK turn ends, read register by register. -/
theorem walkEmitsOneRecordOrEnds : Obligations.WalkEmitsOneRecordOrEnds := by
  intro s s' hb hp h
  rw [step_of_blockMoves hb] at h
  rcases walkTurn_ends_or_emits (s := s.afterTurn) hp h with ⟨-, rfl⟩ | ⟨c, info, rfl⟩ | ⟨t, l, body, hr, hlen, rfl⟩
  · exact .inl ⟨rfl, rfl, rfl, rfl⟩
  · exact .inl ⟨rfl, rfl, rfl, rfl⟩
  · exact .inr ⟨hp, rfl, rfl, ⟨t, l, s.cursor, body⟩, rfl, rfl, rfl, hr, rfl, hlen⟩

/-! The END policy, at any parameters. -/

/-- With `STOP_AT_END`, committing an END record also ends the frame `OK` (41_header_and_sequencer.md R76). -/
theorem commitRecord_end_of_stopAtEnd {p : Params} (hp : p.stopAtEnd = true) (l : TlvLen) (body : RecordBody) (s : State) :
    commitRecord p 0 l body s = (s.withRecord 0 l body).finish .ok := by
  simp [commitRecord, hp, State.withRecord, State.emit, State.setCursor]

theorem decodeEnd_zero (t : TypeCode) (c : Nat) (v : List Byte) : decodeEnd t 0 c v = .ok .endLldpdu := by
  have hb : boundsCheck 0 0 c = .ok () := boundsCheck_eq_ok.2 (by decide)
  simp only [decodeEnd, hb, ok_bind]

theorem decodeEnd_of_ne_zero {l : TlvLen} (hl : l ≠ 0) (t : TypeCode) (c : Nat) (v : List Byte) :
    decodeEnd t l c v = .error (.raised .aboveMax (lengthInfo 0 l c)) := by
  have hpos : 0 < l := (BitVec.pos_iff_ne_zero l).2 hl
  have hb : boundsCheck 0 l c = .error (.raised .aboveMax (lengthInfo 0 l c)) :=
    boundsCheck_eq_error.2 (.inr ⟨Nat.zero_le l.toNat, hpos, rfl⟩)
  simp only [decodeEnd, hb, error_bind]

/-- An END TLV that is ready is the shared WALK operation with `decodeEnd`, at any parameters. -/
theorem blockStepWith_end {p : Params} {s : State} {l : TlvLen} {v : List Byte} (hr : s.tlvReady l v)
    (hb : s.frame.readBytes s.cursor 2 = some (headerBytes 0 l)) :
    blockStepWith p s = runTlv p decodeEnd 0 l s :=
  blockStepWith_ready hr hb

/-- Settles O23: the policy is `commitRecord`'s, and a length is refused by the decoder before it. -/
theorem endPolicyFollowsStopAtEnd : Obligations.EndPolicyFollowsStopAtEnd := by
  intro p s _
  refine ⟨fun hr hb => ?_, fun l v hl hr hb => ?_⟩
  · have hstep : blockStepWith p s = .next (commitRecord p 0 0 .endLldpdu s) := by
      rw [blockStepWith_end hr hb, runTlv_ready hr, decodeEnd_zero]
    refine ⟨fun hstop => ?_, fun hgo => ?_⟩
    · rw [hstep, commitRecord_end_of_stopAtEnd hstop]
      rfl
    · rw [hstep, commitRecord_eq_withRecord s p hgo]
  · rw [blockStepWith_end hr hb, runTlv_ready hr, decodeEnd_of_ne_zero hl]
    rfl

end Sys2Proof.Machine
end

section
/-! PROOFS. The statement of 41_header_and_sequencer.md that every run ends (R78): over a loaded frame each step answers, and
each WALK step ends the frame or leaves at least two bytes less of it. -/

namespace Sys2Proof.Machine

/-- The run has ended, with an outcome (10_state.md R14, R18). -/
structure State.Ended (s : State) : Prop where
  phase : s.phase = .done
  outcome : s.outcome ≠ .none

theorem State.ended_finish (s : State) (e : Ending) : (s.finish e).Ended :=
  ⟨s.finish_phase e, by cases e <;> simp [Ending.outcome]⟩

theorem State.ended_raise (s : State) (c : Cause) (info : ErrInfo) : (s.raise c info).Ended :=
  ⟨s.raise_phase c info, by cases c <;> simp [Cause.outcome]⟩

/-- What every WALK state of a run has: a cursor in a loaded frame, and no turn of the host to come. -/
structure State.Walking (s : State) : Prop where
  phase : s.phase = .walk
  cursor_le : s.cursor ≤ s.frameLen
  loaded : Loaded s
  turns : s.turns = []

/-! Over a loaded frame the block's turn answers. -/

section
variable {s : State} (hload : Loaded s)
include hload

theorem readBytes_of_loaded {a n : Nat} (hn : a + n ≤ s.frameLen) : ∃ bs, s.frame.readBytes a n = some bs :=
  Memory.readBytes_isSome fun i hi => hload (a + i) (by omega)

theorem readBytes_two_of_loaded {a : Nat} (hn : a + 2 ≤ s.frameLen) : ∃ b0 b1, s.frame.readBytes a 2 = some [b0, b1] := by
  obtain ⟨bs, hbs⟩ := readBytes_of_loaded hload hn
  obtain ⟨b0, b1, rfl⟩ := List.length_eq_two.1 (Memory.length_readBytes hbs)
  exact ⟨b0, b1, hbs⟩

/-- Any two bytes at the cursor are a header (30_encoding.md R57). -/
theorem header_of_loaded (hh : s.cursor + 2 ≤ s.frameLen) :
    ∃ t l, s.frame.readBytes s.cursor 2 = some (headerBytes t l) := by
  obtain ⟨b0, b1, hb⟩ := readBytes_two_of_loaded hload hh
  exact ⟨_, _, hb.trans (congrArg some (headerBytes_decodeHeader b0 b1).symm)⟩

theorem runTlv_registry_answers (p : Params) (t : TypeCode) (l : TlvLen) (hp : s.phase = .walk)
    (hh : s.cursor + 2 ≤ s.frameLen) : ∃ s', runTlv p (registry p t) t l s = .next s' := by
  by_cases ht : s.frameLen < s.cursor + 2 + l.toNat
  · exact ⟨_, runTlv_truncated hp hh ht⟩
  · have hlen : s.cursor + 2 + l.toNat ≤ s.frameLen := Nat.le_of_not_lt ht
    obtain ⟨v, hv⟩ := readBytes_of_loaded hload hlen
    rw [runTlv_ready ⟨hp, hlen, hv⟩]
    rcases registry_answers p t l s.cursor v (Memory.length_readBytes hv) with ⟨body, hd⟩ | ⟨k, info, hd, -⟩
    · rw [hd]
      exact ⟨_, rfl⟩
    · rw [hd]
      exact ⟨_, rfl⟩

theorem walkTurn_answers (hp : s.phase = .walk) (hc : s.cursor ≤ s.frameLen) : ∃ s', blockTurn s = .next s' := by
  obtain hend | hone | hh : s.cursor = s.frameLen ∨ s.cursor + 1 = s.frameLen ∨ s.cursor + 2 ≤ s.frameLen := by omega
  · exact ⟨_, blockTurn_of_payload_end hp hend⟩
  · exact ⟨_, blockTurn_of_one_byte_left hp hone⟩
  · obtain ⟨t, l, hr⟩ := header_of_loaded hload hh
    rw [blockTurn_of_header hp hh hr]
    exact runTlv_registry_answers hload Config.params t l hp hh

theorem execEnvelope_answers (hp : s.phase = .validate) : ∃ s', execEnvelope s = .next s' := by
  by_cases hl : s.frameLen < 14
  · exact ⟨_, execEnvelope_of_short hp hl⟩
  · have hl : 14 ≤ s.frameLen := Nat.le_of_not_lt hl
    obtain ⟨hi, lo, het⟩ := readBytes_two_of_loaded hload (a := 12) (by omega)
    by_cases hlldp : hi = 0x88 ∧ lo = 0xCC
    · obtain ⟨rfl, rfl⟩ := hlldp
      obtain ⟨dst, hdst⟩ := readBytes_of_loaded hload (a := 0) (n := 6) (by omega)
      rw [execEnvelope_of_lldp_etherType hp hl het hdst]
      split
      · exact ⟨_, rfl⟩
      · exact ⟨_, rfl⟩
    · exact ⟨_, execEnvelope_of_wrong_etherType hp hl het hlldp⟩

end

/-! One step of each phase of a run. -/

/-- A WALK step ends the frame or walks on, past a header at least (41_header_and_sequencer.md R78). -/
theorem step_of_walking {s : State} (h : s.Walking) : ∃ s', step s = .next s' ∧
    (s'.Ended ∨ (s'.Walking ∧ s'.frameLen = s.frameLen ∧ s.cursor + 2 ≤ s'.cursor)) := by
  obtain ⟨hp, hc, hload, hturns⟩ := h
  obtain ⟨s', hs⟩ := walkTurn_answers hload hp hc
  refine ⟨s', (step_of_turns_nil hturns).trans hs, ?_⟩
  rcases walkTurn_ends_or_emits hp hs with ⟨-, rfl⟩ | ⟨c, info, rfl⟩ | ⟨t, l, body, -, hlen, rfl⟩
  · exact .inl (s.ended_finish _)
  · exact .inl (s.ended_raise c info)
  · exact .inr ⟨⟨hp, hlen, hload, hturns⟩, rfl, Nat.le_add_right _ _⟩

/-- The VALIDATE step ends the frame or hands its payload to WALK. -/
theorem step_of_validate {s : State} (hp : s.phase = .validate) (hload : Loaded s) (hturns : s.turns = []) :
    ∃ s', step s = .next s' ∧ (s'.Ended ∨ (s'.Walking ∧ s'.frameLen = s.frameLen ∧ s'.cursor = 14)) := by
  obtain ⟨s', hs⟩ := execEnvelope_answers hload hp
  refine ⟨s', ?_, ?_⟩
  · rw [step_of_turns_nil hturns]
    simpa only [blockTurn, hp, exec] using hs
  · rcases execEnvelope_next hs with ⟨-, ⟨-, rfl⟩ | ⟨hl, rfl | rfl | rfl⟩⟩
    · exact .inl (s.ended_raise _ _)
    · exact .inl (s.ended_finish _)
    · exact .inl (s.ended_finish _)
    · exact .inr ⟨⟨rfl, hl, hload, hturns⟩, rfl, rfl⟩

/-! The run. -/

/-- Within `n` steps the run has ended. -/
def State.EndsWithin (s : State) (n : Nat) : Prop :=
  ∃ k s', k ≤ n ∧ stepRun k s = .next s' ∧ s'.Ended

theorem State.Ended.endsWithin {s : State} (h : s.Ended) (n : Nat) : s.EndsWithin n :=
  ⟨0, s, Nat.zero_le n, rfl, h⟩

theorem State.EndsWithin.mono {s : State} {n m : Nat} (h : s.EndsWithin n) (hnm : n ≤ m) : s.EndsWithin m := by
  obtain ⟨k, s', hk, hrun, hend⟩ := h
  exact ⟨k, s', hk.trans hnm, hrun, hend⟩

theorem State.EndsWithin.of_step {s s' : State} {n : Nat} (hs : step s = .next s') (h : s'.EndsWithin n) :
    s.EndsWithin (n + 1) := by
  obtain ⟨k, s'', hk, hrun, hend⟩ := h
  exact ⟨k + 1, s'', Nat.succ_le_succ hk, by simp only [stepRun, hs, hrun], hend⟩

/-- A walk ends within one step for every two bytes left and one more, by induction on the bytes left. -/
theorem State.Walking.endsWithin {s : State} (h : s.Walking) : s.EndsWithin ((s.frameLen - s.cursor) / 2 + 1) := by
  induction hn : s.frameLen - s.cursor using Nat.strongRecOn generalizing s with
  | ind n ih =>
    obtain ⟨s', hs, hend | ⟨h', hlen, hadv⟩⟩ := step_of_walking h
    · exact .of_step hs (hend.endsWithin _)
    · have hle := h'.cursor_le
      have hless : s'.frameLen - s'.cursor < n := by omega
      exact .of_step hs ((ih _ hless h' rfl).mono (by omega))

/-- Settles O52: VALIDATE is one step, and `State.Walking.endsWithin` bounds the walk after it. -/
theorem everyRunReachesDone : Obligations.EveryRunReachesDone := by
  intro s hcur hload hturns hrun
  obtain ⟨hc, hc14, -⟩ := hcur
  have hwalking : s.phase = .walk → s.Walking := fun hp => ⟨hp, hc, hload, hturns⟩
  refine ⟨?_, fun hp => ?_, fun hp => ?_⟩
  · have hends : s.EndsWithin (runBound s.frameLen) := by
      rcases hrun with hp | hp
      · obtain ⟨s', hs, hend | ⟨h', hlen, hc'⟩⟩ := step_of_validate hp hload hturns
        · exact .of_step hs (hend.endsWithin _)
        · refine .of_step hs (h'.endsWithin.mono ?_)
          rw [hlen, hc']
      · have := hc14 hp
        refine (hwalking hp).endsWithin.mono ?_
        unfold runBound
        omega
    obtain ⟨k, s', hk, hsteps, hdone, hout⟩ := hends
    exact ⟨k, s', hk, hsteps, hdone, hout⟩
  · obtain ⟨s', hs, hend | ⟨-, -, hadv⟩⟩ := step_of_walking (hwalking hp)
    · exact ⟨s', hs, .inl hend.phase⟩
    · exact ⟨s', hs, .inr hadv⟩
  · obtain ⟨s', hs, hend | ⟨h', -⟩⟩ := step_of_validate hp hload hturns
    · exact ⟨s', hs, .inl hend.phase⟩
    · exact ⟨s', hs, .inr h'.phase⟩

end Sys2Proof.Machine
end

section
/-! PROOFS. The statements of 43_tlv_decoders_basic.md: the decoders of types 0 to 7 (R91 to R100). Each is the record or the
text error of a length within the bounds, the registry's row, and the length errors outside the bounds. -/

namespace Sys2Proof.Machine

/-! A ready TLV by what its decoder answers: a record, an error, or the answer of `CheckText`. -/

section
variable {decoder : Decoder} {t : TypeCode} {l : TlvLen} {s : State} {v : List Byte} (hr : s.tlvReady l v)
include hr

theorem length_of_tlvReady : v.length = l.toNat := by
  obtain ⟨-, -, hv⟩ := hr
  exact Memory.length_readBytes hv

theorem runTlv_of_record {body : RecordBody} (hd : decoder t l s.cursor v = .ok body) :
    runTlv Config.params decoder t l s = .next (s.withRecord t l body) := by
  rw [runTlv_ready hr, hd, ← commitRecord_params]

theorem runTlv_of_raised {c : Cause} {info : ErrInfo} (hd : decoder t l s.cursor v = .error (.raised c info)) :
    runTlv Config.params decoder t l s = .next (s.endedWith c.outcome c.detail info) := by
  rw [runTlv_ready hr, hd, ← State.raise_eq_endedWith]
  rfl

/-- A decoder that ends in `CheckText`: the record where the text is well-formed UTF-8, and the error at the text's offset
where it is not (42_field_primitives.md R84). -/
theorem runTlv_of_checkText {text : List Byte} {pos : Nat} {body : RecordBody}
    (hd : decoder t l s.cursor v = (checkText text pos t l s.cursor >>= fun _ => .ok body)) :
    (utf8Valid text = true → runTlv Config.params decoder t l s = .next (s.withRecord t l body))
    ∧ (utf8Valid text = false → runTlv Config.params decoder t l s
        = .next (s.endedWith .decodeError 1 { tlvOffset := s.cursor, type := t, len := l, pos := pos })) := by
  refine ⟨fun hu => ?_, fun hu => ?_⟩
  · have hok : checkText text pos t l s.cursor = .ok () := checkText_eq_ok.2 hu
    rw [hok, ok_bind] at hd
    exact runTlv_of_record hr hd
  · have herr : checkText text pos t l s.cursor = .error (.raised .utf8Invalid (fieldInfo t l s.cursor pos)) :=
      checkText_eq_error.2 ⟨hu, rfl⟩
    rw [herr, error_bind] at hd
    exact runTlv_of_raised hr hd

end

/-! The length errors, for every decoder that checks its length first. -/

/-- The decoder of type `t` calls `BoundsCheck` before anything else (42_field_primitives.md R80). -/
def ChecksBoundsFirst (decoder : Decoder) (t : TypeCode) : Prop :=
  ∃ rest : TlvLen → Nat → List Byte → Except Halt RecordBody,
    ∀ l c v, decoder t l c v = (boundsCheck t l c >>= fun _ => rest l c v)

theorem ChecksBoundsFirst.eq_error {decoder : Decoder} {t : TypeCode} (hd : ChecksBoundsFirst decoder t) {l : TlvLen}
    {c : Nat} {h : Halt} (hb : boundsCheck t l c = .error h) (v : List Byte) : decoder t l c v = .error h := by
  obtain ⟨rest, hrest⟩ := hd
  rw [hrest, hb, error_bind]

theorem ChecksBoundsFirst.lengthErrors {decoder : Decoder} {t : TypeCode} (hd : ChecksBoundsFirst decoder t)
    (hle : (lengthBounds t).1 ≤ (lengthBounds t).2) :
    raisesLengthErrors t (lengthBounds t).1 (lengthBounds t).2 (runTlv Config.params decoder t) := by
  refine fun s l v hr => ⟨fun hlo => ?_, fun hhi => ?_⟩
  · exact runTlv_of_raised hr (hd.eq_error (boundsCheck_eq_error.2 (.inl ⟨hlo, rfl⟩)) v)
  · have hlo : (lengthBounds t).1 ≤ l := BitVec.le_trans hle (BitVec.le_of_lt hhi)
    exact runTlv_of_raised hr (hd.eq_error (boundsCheck_eq_error.2 (.inr ⟨hlo, hhi, rfl⟩)) v)

theorem boundsCheck_of_within {t : TypeCode} {l : TlvLen} (c : Nat) (hlo : (lengthBounds t).1 ≤ l)
    (hhi : l ≤ (lengthBounds t).2) : boundsCheck t l c = .ok () :=
  boundsCheck_eq_ok.2 ⟨hlo, hhi⟩

/-- All bytes of a value after its first one. -/
theorem subBytes_cons_one {n : Nat} {b : Byte} {v : List Byte} (hn : (b :: v).length = n) :
    subBytes (b :: v) 1 (n - 1) = .ok v := by
  subst hn
  exact subBytes_eq_ok.2 ⟨by simp [Nat.add_comm], by simp⟩

/-- Settles O22: `decodeEnd` on length 0 gives the empty record. -/
theorem endDecodesToAnEmptyRecord : Obligations.EndDecodesToAnEmptyRecord := by
  refine ⟨fun s hr => ?_, headerSelects_of_instrOfHeader fun _ => rfl, ?_⟩
  · exact runTlv_of_record hr (decodeEnd_zero 0 s.cursor [])
  · have hfirst : ChecksBoundsFirst decodeEnd 0 := ⟨_, fun _ _ _ => rfl⟩
    exact hfirst.lengthErrors (by decide)

/-! CHASSIS_ID, in both settings of `CHASSIS_ID_FIELD`. -/

section
variable {p : Params} {l : TlvLen} {sub : Byte} {id : List Byte} (c : Nat) (hlo : 7 ≤ l) (hhi : l ≤ 256)
  (hlen : (sub :: id).length = l.toNat)
include hlo hhi hlen

theorem decodeChassisId_allRemaining (hp : p.chassisIdField = .allRemaining) : decodeChassisId p 1 l c (sub :: id)
    = .ok (.chassisId sub (subtypeClass sub) id (if sub = 4 then .hexColon else .hexPlain)) := by
  have hb : boundsCheck 1 l c = .ok () := boundsCheck_of_within c hlo hhi
  have hsub : byteAt (sub :: id) 0 = .ok sub := rfl
  simp only [decodeChassisId, hb, hsub, hp, subBytes_cons_one hlen, ok_bind]

theorem decodeChassisId_firstSix (hp : p.chassisIdField = .firstSix) : decodeChassisId p 1 l c (sub :: id)
    = .ok (.chassisId sub (subtypeClass sub) (id.take 6) (if sub = 4 then .hexColon else .hexPlain)) := by
  have hb : boundsCheck 1 l c = .ok () := boundsCheck_of_within c hlo hhi
  have hsub : byteAt (sub :: id) 0 = .ok sub := rfl
  have hl : 7 ≤ l.toNat := hlo
  have hid : subBytes (sub :: id) 1 6 = .ok (id.take 6) := subBytes_of_le (by omega)
  simp only [decodeChassisId, hb, hsub, hp, hid, ok_bind]

end

/-- Settles O24: the two settings of the id field differ in the bytes after the subtype only. -/
theorem chassisIdDecodes : Obligations.ChassisIdDecodes := by
  refine ⟨fun s l sub id hlo hhi hr => ?_, headerSelects_of_instrOfHeader fun _ => rfl, ?_⟩
  · have hlen := length_of_tlvReady hr
    refine ⟨subtypeClass sub, kindAndSubtypeClassCodes.2 sub, ?_, fun p hp => ?_⟩
    · exact runTlv_of_record hr (decodeChassisId_allRemaining s.cursor hlo hhi hlen rfl)
    · exact decodeChassisId_firstSix s.cursor hlo hhi hlen hp
  · have hfirst : ChecksBoundsFirst (decodeChassisId Config.params) 1 := ⟨_, fun _ _ _ => rfl⟩
    exact hfirst.lengthErrors (by decide)

/-- Within the bounds PORT_ID is `CheckText` on the bytes after the subtype (43_tlv_decoders_basic.md R93). -/
theorem decodePortId_eq_checkText {l : TlvLen} {sub : Byte} {text : List Byte} (c : Nat) (hhi : l ≤ 255)
    (hlen : (sub :: text).length = l.toNat) : decodePortId 2 l c (sub :: text)
      = (checkText text (c + 3) 2 l c >>= fun _ => .ok (.portId sub (subtypeClass sub) text)) := by
  have hlo : 1 ≤ l.toNat := hlen ▸ Nat.le_add_left 1 text.length
  have hb : boundsCheck 2 l c = .ok () := boundsCheck_of_within c hlo hhi
  have hsub : byteAt (sub :: text) 0 = .ok sub := rfl
  simp only [decodePortId, hb, hsub, subBytes_cons_one hlen, ok_bind]

/-- Settles O25: a value with a subtype has length 1 at least, and then `CheckText` decides. -/
theorem portIdDecodes : Obligations.PortIdDecodes := by
  refine ⟨fun s l sub text hhi hr => ?_, headerSelects_of_instrOfHeader fun _ => rfl, ?_⟩
  · obtain ⟨hvalid, hinvalid⟩ :=
      runTlv_of_checkText hr (decodePortId_eq_checkText s.cursor hhi (length_of_tlvReady hr))
    exact ⟨fun hu => ⟨subtypeClass sub, kindAndSubtypeClassCodes.2 sub, hvalid hu⟩, hinvalid⟩
  · have hfirst : ChecksBoundsFirst decodePortId 2 := ⟨_, fun _ _ _ => rfl⟩
    exact hfirst.lengthErrors (by decide)

theorem joinBe16_eq_ofNat (hi lo : Byte) : joinBe16 hi lo = BitVec.ofNat 16 (hi.toNat * 256 + lo.toNat) := by
  rw [← joinBe16_toNat, BitVec.ofNat_toNat, BitVec.setWidth_eq]

/-- Settles O26: the two bytes joined big-endian are the number of seconds. -/
theorem ttlDecodes : Obligations.TtlDecodes := by
  refine ⟨fun s hi lo hr => ?_, headerSelects_of_instrOfHeader fun _ => rfl, ?_⟩
  · have hb : boundsCheck 3 2 s.cursor = .ok () := boundsCheck_of_within s.cursor (by decide) (by decide)
    have hseconds : be16At [hi, lo] 0 = .ok (joinBe16 hi lo) := rfl
    rw [← joinBe16_eq_ofNat]
    exact runTlv_of_record hr (by simp only [decodeTtl, hb, hseconds, ok_bind])
  · have hfirst : ChecksBoundsFirst decodeTtl 3 := ⟨_, fun _ _ _ => rfl⟩
    exact hfirst.lengthErrors (by decide)

/-! The three text types are one decoder but for the type code and the record (43_tlv_decoders_basic.md R95 to R97). -/

/-- The decoder of a text type: up to 255 bytes, then `CheckText` on the whole value. -/
structure DecodesText (decoder : Decoder) (t : TypeCode) (mk : List Byte → RecordBody) : Prop where
  bounds : lengthBounds t = (0, 255)
  eq : ∀ l c v, decoder t l c v
    = (boundsCheck t l c >>= fun _ => checkText v (c + 2) t l c >>= fun _ => .ok (mk v))

theorem decodesText_portDesc : DecodesText decodePortDesc 4 .portDesc := ⟨rfl, fun _ _ _ => rfl⟩
theorem decodesText_sysName : DecodesText decodeSysName 5 .sysName := ⟨rfl, fun _ _ _ => rfl⟩
theorem decodesText_sysDesc : DecodesText decodeSysDesc 6 .sysDesc := ⟨rfl, fun _ _ _ => rfl⟩

section
variable {decoder : Decoder} {t : TypeCode} {mk : List Byte → RecordBody} (hd : DecodesText decoder t mk)
include hd

theorem DecodesText.runTlv_eq {s : State} {l : TlvLen} {text : List Byte} (hhi : l ≤ 255) (hr : s.tlvReady l text) :
    (utf8Valid text = true → runTlv Config.params decoder t l s = .next (s.withRecord t l (mk text)))
    ∧ (utf8Valid text = false → runTlv Config.params decoder t l s = .next (s.endedWith .decodeError 1
        { tlvOffset := s.cursor, type := t, len := l, pos := s.cursor + 2 })) := by
  have hlo : 0 ≤ l := Nat.zero_le l.toNat
  have hb : boundsCheck t l s.cursor = .ok () := boundsCheck_eq_ok.2 (by rw [hd.bounds]; exact ⟨hlo, hhi⟩)
  exact runTlv_of_checkText hr (by rw [hd.eq, hb, ok_bind])

theorem DecodesText.lengthErrors : raisesLengthErrors t 0 255 (runTlv Config.params decoder t) := by
  have hfirst : ChecksBoundsFirst decoder t := ⟨_, hd.eq⟩
  have herr := hfirst.lengthErrors (by rw [hd.bounds]; decide)
  rwa [hd.bounds] at herr

end

/-- Settles O27: one argument, `DecodesText.runTlv_eq`, for the three types. -/
theorem textTlvsDecode : Obligations.TextTlvsDecode := by
  refine ⟨fun s l text hhi hr => ?_, headerSelects_of_instrOfHeader fun _ => rfl,
    headerSelects_of_instrOfHeader fun _ => rfl, headerSelects_of_instrOfHeader fun _ => rfl,
    decodesText_portDesc.lengthErrors, decodesText_sysName.lengthErrors,
    decodesText_sysDesc.lengthErrors⟩
  obtain ⟨portDesc, portDescErr⟩ := decodesText_portDesc.runTlv_eq hhi hr
  obtain ⟨sysName, sysNameErr⟩ := decodesText_sysName.runTlv_eq hhi hr
  obtain ⟨sysDesc, sysDescErr⟩ := decodesText_sysDesc.runTlv_eq hhi hr
  exact ⟨fun hu => ⟨portDesc hu, sysName hu, sysDesc hu⟩, fun hu => ⟨portDescErr hu, sysNameErr hu, sysDescErr hu⟩⟩

/-- The Booleans of a bitmap are the bits of its second byte (43_tlv_decoders_basic.md R98, R100). -/
theorem capabilityBits_joinBe16 (hi lo : Byte) (i : Fin 8) : (capabilityBits (joinBe16 hi lo))[i] = lo.getLsbD i := by
  rw [Fin.getElem_fin, capabilityBits_getElem, joinBe16, BitVec.getLsbD_append, if_pos i.isLt]

theorem decodeSysCap_four (a b c d : Byte) (o : Nat) : decodeSysCap 7 4 o [a, b, c, d] = .ok
    (.sysCap (joinBe16 a b) (joinBe16 c d) (capabilityBits (joinBe16 a b)) (capabilityBits (joinBe16 c d))) := by
  have hb : boundsCheck 7 4 o = .ok () := boundsCheck_of_within o (by decide) (by decide)
  have hsys : be16At [a, b, c, d] 0 = .ok (joinBe16 a b) := rfl
  have hen : be16At [a, b, c, d] 2 = .ok (joinBe16 c d) := rfl
  simp only [decodeSysCap, hb, hsys, hen, ok_bind]

/-- Settles O28: the raw bitmaps, and for each the low 8 bits. -/
theorem sysCapDecodes : Obligations.SysCapDecodes := by
  refine ⟨fun s a b c d hr => ?_, headerSelects_of_instrOfHeader fun _ => rfl, ?_⟩
  · exact ⟨_, _, runTlv_of_record hr (decodeSysCap_four a b c d s.cursor),
      fun i => ⟨capabilityBits_joinBe16 a b i, capabilityBits_joinBe16 c d i⟩⟩
  · have hfirst : ChecksBoundsFirst decodeSysCap 7 := ⟨_, fun _ _ _ => rfl⟩
    exact hfirst.lengthErrors (by decide)

end Sys2Proof.Machine
end

section
/-! PROOFS. The statements of 44_tlv_decoders_structured.md: MGMT_ADDR by its layout and the order of its checks (R101 to
R107), ORG_SPECIFIC (R108), the fallback (R109, R110), and what every decoder can raise (R112). -/

namespace Sys2Proof.Machine

/-! Reads of a value from an offset on. -/

theorem byteAt_add (v : List Byte) (i k : Nat) : byteAt v (i + k) = byteAt (v.drop i) k := by
  simp only [byteAt, List.getElem?_drop]

theorem be32At_add (v : List Byte) (i k : Nat) : be32At v (i + k) = be32At (v.drop i) k := by
  simp only [be32At, Nat.add_assoc, byteAt_add]

theorem subBytes_add {v : List Byte} {i : Nat} (hi : i ≤ v.length) (k n : Nat) :
    subBytes v (i + k) n = subBytes (v.drop i) k n := by
  have hiff : v.length < i + k + n ↔ v.length - i < k + n := by omega
  simp only [subBytes, List.length_drop, List.drop_drop, hiff]

theorem joinBe32_toNat (b3 b2 b1 b0 : Byte) :
    (joinBe32 b3 b2 b1 b0).toNat = ((b3.toNat * 256 + b2.toNat) * 256 + b1.toNat) * 256 + b0.toNat := by
  have append_byte {w : Nat} (x : BitVec w) (b : Byte) : (x ++ b).toNat = x.toNat * 256 + b.toNat := by
    rw [BitVec.toNat_append, ← Nat.shiftLeft_add_eq_or_of_lt b.isLt, Nat.shiftLeft_eq]
  simp only [joinBe32, append_byte]

theorem joinBe32_eq_zero_iff {b3 b2 b1 b0 : Byte} :
    joinBe32 b3 b2 b1 b0 = 0 ↔ b3 = 0 ∧ b2 = 0 ∧ b1 = 0 ∧ b0 = 0 := by
  simp only [← BitVec.toNat_inj, joinBe32_toNat, BitVec.ofNat_eq_ofNat, BitVec.toNat_ofNat, Nat.zero_mod]
  omega

/-! MGMT_ADDR: the fields of R101 before the OID, and the checks on them. -/

/-- The fields of a management address before its OID, `N` counting the address and its subtype
(44_tlv_decoders_structured.md R101). -/
structure MgmtAddrHead where
  addrStrLen : Byte
  addrSubtype : Byte
  addr : List Byte
  ifSubtype : Byte
  n3 : Byte
  n2 : Byte
  n1 : Byte
  n0 : Byte
  oidLen : Byte
  addrStrLen_eq : addrStrLen.toNat = 1 + addr.length

namespace MgmtAddrHead

variable (h : MgmtAddrHead) (rest : List Byte)

/-- The 32-bit interface number, big-endian. -/
def ifNumber : BitVec 32 := joinBe32 h.n3 h.n2 h.n1 h.n0

/-- The fields from the interface subtype on, and the bytes after them. -/
def interfacePart : List Byte := h.ifSubtype :: h.n3 :: h.n2 :: h.n1 :: h.n0 :: h.oidLen :: rest

/-- A value: the fields and the bytes after them. -/
def value : List Byte := h.addrStrLen :: h.addrSubtype :: h.addr ++ h.interfacePart rest

/-- The record of these fields with an OID. -/
def record (oid : List Byte) : RecordBody :=
  .mgmtAddr h.addrStrLen h.addrSubtype h.addr (addrRender h.addrSubtype) h.ifSubtype h.ifNumber h.oidLen
    (decide (h.oidLen ≠ 0)) oid

/-- The bytes of the value that the layout takes, the OID among them. -/
def used : Nat := h.addrStrLen.toNat + 7 + h.oidLen.toNat

/-- The interface fields pass their checks (44_tlv_decoders_structured.md R104, R105). -/
structure InterfaceOk : Prop where
  subtype_le : h.ifSubtype.toNat ≤ 3
  reserved : h.ifSubtype = 0 → h.ifNumber = 0

/-- The checks on the OID and on what is left after it (44_tlv_decoders_structured.md R106, R107), and the record. -/
def oidChecks (p : Params) (l : TlvLen) (c : Nat) : Except Halt RecordBody := do
  check (h.used ≤ l.toNat) (.raised .mgmtOidOverrun (fieldInfo 8 l c (c + 2 + (h.addrStrLen.toNat + 6))))
  check (¬ (h.used < l.toNat ∧ p.mgmtTrailing = .reject))
    (.raised .mgmtTrailing (fieldInfo 8 l c (c + 2 + h.used)))
  let oid ← subBytes rest 0 h.oidLen.toNat
  .ok (h.record oid)

/-- The checks on the interface fields, then those on the OID, in the order of 60_exceptions.md R121. -/
def checks (p : Params) (l : TlvLen) (c : Nat) : Except Halt RecordBody := do
  check (h.ifSubtype.toNat ≤ 3)
    (.raised .mgmtIfSubtypeRange (fieldInfo 8 l c (c + 2 + (h.addrStrLen.toNat + 1))))
  check (¬ (h.ifSubtype = 0 ∧ h.ifNumber ≠ 0))
    (.raised .mgmtIfReservedNonzero (fieldInfo 8 l c (c + 2 + (h.addrStrLen.toNat + 1))))
  h.oidChecks rest p l c

variable {h} in
theorem interfaceOk_of_bytes (hle : h.ifSubtype.toNat ≤ 3)
    (hreserved : h.ifSubtype = 0 → h.n3 = 0 ∧ h.n2 = 0 ∧ h.n1 = 0 ∧ h.n0 = 0) : h.InterfaceOk :=
  ⟨hle, fun hi => joinBe32_eq_zero_iff.2 (hreserved hi)⟩

theorem addrStrLen_ne_zero : h.addrStrLen ≠ 0 := by
  intro hz
  have hlen := h.addrStrLen_eq
  rw [hz] at hlen
  change 0 = _ at hlen
  omega

/-! What the decoder reads from a value. -/

theorem length_value : (h.value rest).length = h.addrStrLen.toNat + 7 + rest.length := by
  have hlen := h.addrStrLen_eq
  simp only [value, interfacePart, List.cons_append, List.length_cons, List.length_append]
  omega

theorem drop_value : (h.value rest).drop (h.addrStrLen.toNat + 1) = h.interfacePart rest := by
  rw [h.addrStrLen_eq, Nat.add_comm 1]
  exact List.drop_left

theorem byteAt_value_addrStrLen : byteAt (h.value rest) 0 = .ok h.addrStrLen := rfl

theorem byteAt_value_addrSubtype : byteAt (h.value rest) 1 = .ok h.addrSubtype := rfl

theorem subBytes_value_addr : subBytes (h.value rest) 2 (h.addrStrLen.toNat - 1) = .ok h.addr := by
  have hlen := h.length_value rest
  rw [h.addrStrLen_eq] at hlen ⊢
  refine subBytes_eq_ok.2 ⟨by omega, ?_⟩
  rw [Nat.add_sub_cancel_left]
  exact List.take_left

theorem byteAt_value_ifSubtype : byteAt (h.value rest) (h.addrStrLen.toNat + 1) = .ok h.ifSubtype := by
  rw [← Nat.add_zero (h.addrStrLen.toNat + 1), byteAt_add, drop_value]
  rfl

theorem be32At_value_ifNumber : be32At (h.value rest) (h.addrStrLen.toNat + 1 + 1) = .ok h.ifNumber := by
  rw [be32At_add, drop_value]
  rfl

theorem byteAt_value_oidLen : byteAt (h.value rest) (h.addrStrLen.toNat + 1 + 5) = .ok h.oidLen := by
  rw [byteAt_add, drop_value]
  rfl

theorem subBytes_value_oid (m : Nat) :
    subBytes (h.value rest) (h.addrStrLen.toNat + 1 + 6) m = subBytes rest 0 m := by
  have hlen := h.length_value rest
  rw [subBytes_add (by omega), drop_value, ← Nat.add_zero 6, subBytes_add (Nat.le_add_left 6 rest.length)]
  rfl

/-- A value whose first byte is a fitting `N` splits at the interface fields. -/
theorem exists_value {v : List Byte} {n ifs n3 n2 n1 n0 m : Byte} (hv : v[0]? = some n) (hz : n ≠ 0)
    (hfit : n.toNat + 7 ≤ v.length) (hifs : (v.drop (n.toNat + 1)).take 6 = [ifs, n3, n2, n1, n0, m]) :
    ∃ asub addr rest hn, v = value ⟨n, asub, addr, ifs, n3, n2, n1, n0, m, hn⟩ rest := by
  have hn : n.toNat ≠ 0 := fun h0 => hz (BitVec.eq_of_toNat_eq h0)
  obtain ⟨k, hk⟩ := Nat.exists_eq_succ_of_ne_zero hn
  rw [hk] at hfit hifs
  match v, hv with
  | [_], _ => simp at hfit
  | _ :: asub :: tail, rfl =>
    have hlen : (tail.take k).length = k := List.length_take_of_le (by simp at hfit; omega)
    have hifs : (tail.drop k).take 6 = [ifs, n3, n2, n1, n0, m] := hifs
    have htail : tail.drop k = [ifs, n3, n2, n1, n0, m] ++ tail.drop (k + 6) := by
      rw [← hifs, ← List.drop_drop, List.take_append_drop]
    refine ⟨asub, tail.take k, tail.drop (k + 6), by omega, ?_⟩
    calc _ :: asub :: tail = _ :: asub :: (tail.take k ++ tail.drop k) := by rw [List.take_append_drop]
      _ = _ := by rw [htail]; rfl

end MgmtAddrHead

section
variable {p : Params} {l : TlvLen} (hlo : 9 ≤ l) (hhi : l ≤ 167) (c : Nat)
include hlo hhi

theorem boundsCheck_mgmtAddr : boundsCheck 8 l c = .ok () := boundsCheck_of_within c hlo hhi

theorem decodeMgmtAddr_of_addrStrLen_zero {v : List Byte} (hv : v[0]? = some 0) :
    decodeMgmtAddr p 8 l c v = .error (.raised .mgmtAddrLenZero (fieldInfo 8 l c (c + 2))) := by
  have hb := boundsCheck_mgmtAddr hlo hhi c
  have hz : ¬ (0 : Byte) ≠ 0 := not_not.2 rfl
  simp only [decodeMgmtAddr, hb, byteAt_eq_ok.2 hv, check_neg hz, ok_bind, error_bind]

theorem decodeMgmtAddr_of_addr_overrun {v : List Byte} {n : Byte} (hv : v[0]? = some n) (hz : n ≠ 0)
    (hover : l.toNat < n.toNat + 7) :
    decodeMgmtAddr p 8 l c v = .error (.raised .mgmtAddrOverrun (fieldInfo 8 l c (c + 2))) := by
  have hb := boundsCheck_mgmtAddr hlo hhi c
  simp only [decodeMgmtAddr, hb, byteAt_eq_ok.2 hv, check_pos hz, check_neg (Nat.not_le.2 hover), ok_bind, error_bind]

/-- On a value that holds the fields, what is left of DecodeMgmtAddr is the checks on them. -/
theorem decodeMgmtAddr_value {h : MgmtAddrHead} {rest : List Byte} (hlen : (h.value rest).length = l.toNat) :
    decodeMgmtAddr p 8 l c (h.value rest) = h.checks rest p l c := by
  have hb := boundsCheck_mgmtAddr hlo hhi c
  have hfit : h.addrStrLen.toNat + 7 ≤ l.toNat := by
    rw [← hlen, h.length_value]
    exact Nat.le_add_right _ _
  have hused : h.addrStrLen.toNat + 1 + 6 + h.oidLen.toNat = h.used := rfl
  have hpos : c + 2 + (h.addrStrLen.toNat + 1) + 6 + h.oidLen.toNat = c + 2 + h.used := by omega
  simp only [decodeMgmtAddr, hb, ok_bind, h.byteAt_value_addrStrLen, check_pos h.addrStrLen_ne_zero, check_pos hfit,
    h.byteAt_value_addrSubtype, h.subBytes_value_addr, h.byteAt_value_ifSubtype, h.be32At_value_ifNumber,
    h.byteAt_value_oidLen, hused, hpos, h.subBytes_value_oid]
  rfl

end

/-! The checks' outcomes, in their order. -/

namespace MgmtAddrHead

variable {h : MgmtAddrHead} {rest : List Byte} {p : Params} {l : TlvLen} {c : Nat}

theorem checks_of_ifSubtype_range (hi : 3 < h.ifSubtype.toNat) : h.checks rest p l c
    = .error (.raised .mgmtIfSubtypeRange (fieldInfo 8 l c (c + 2 + (h.addrStrLen.toNat + 1)))) := by
  rw [checks, check_neg (Nat.not_le.2 hi), error_bind]

theorem checks_of_reserved_nonzero (hi : h.ifSubtype = 0) (hn : h.ifNumber ≠ 0) : h.checks rest p l c
    = .error (.raised .mgmtIfReservedNonzero (fieldInfo 8 l c (c + 2 + (h.addrStrLen.toNat + 1)))) := by
  have hle : h.ifSubtype.toNat ≤ 3 := by rw [hi]; decide
  rw [checks, check_pos hle, ok_bind, check_neg (not_not.2 ⟨hi, hn⟩), error_bind]

section
variable (hok : h.InterfaceOk)
include hok

theorem checks_of_interfaceOk : h.checks rest p l c = h.oidChecks rest p l c := by
  have hreserved : ¬ (h.ifSubtype = 0 ∧ h.ifNumber ≠ 0) := fun ⟨hi, hn⟩ => hn (hok.reserved hi)
  rw [checks, check_pos hok.subtype_le, ok_bind, check_pos hreserved, ok_bind]

theorem checks_of_oid_overrun (hu : l.toNat < h.used) : h.checks rest p l c
    = .error (.raised .mgmtOidOverrun (fieldInfo 8 l c (c + 2 + (h.addrStrLen.toNat + 6)))) := by
  rw [checks_of_interfaceOk hok, oidChecks, check_neg (Nat.not_le.2 hu), error_bind]

theorem checks_of_trailing (hu : h.used < l.toNat) (hp : p.mgmtTrailing = .reject) : h.checks rest p l c
    = .error (.raised .mgmtTrailing (fieldInfo 8 l c (c + 2 + h.used))) := by
  rw [checks_of_interfaceOk hok, oidChecks, check_pos (Nat.le_of_lt hu), ok_bind, check_neg (not_not.2 ⟨hu, hp⟩),
    error_bind]

/-- The OID fits, and nothing is left after it or what is left is ignored (44_tlv_decoders_structured.md R107). -/
theorem checks_of_accepted {oid extra : List Byte} (hm : h.oidLen.toNat = oid.length) (hu : h.used ≤ l.toNat)
    (hp : h.used = l.toNat ∨ p.mgmtTrailing = .ignore) : h.checks (oid ++ extra) p l c = .ok (h.record oid) := by
  have htrailing : ¬ (h.used < l.toNat ∧ p.mgmtTrailing = .reject) := by
    rintro ⟨hlt, hreject⟩
    rcases hp with heq | hignore
    · omega
    · simp [hignore] at hreject
  have hoid : subBytes (oid ++ extra) 0 h.oidLen.toNat = .ok oid := subBytes_eq_ok.2 ⟨by simp [hm], by simp [hm]⟩
  rw [checks_of_interfaceOk hok, oidChecks, check_pos hu, ok_bind, check_pos htrailing, ok_bind, hoid, ok_bind]

end

end MgmtAddrHead

/-- Settles O29: a layout that fills its value passes every check. -/
theorem mgmtAddrDecodes : Obligations.MgmtAddrDecodes := by
  intro s l n asub ifs n3 n2 n1 n0 m addr oid hlo hhi hr hn hm hifs hreserved
  let h : MgmtAddrHead := ⟨n, asub, addr, ifs, n3, n2, n1, n0, m, hn⟩
  have hok : h.InterfaceOk := MgmtAddrHead.interfaceOk_of_bytes hifs hreserved
  have hlen : (h.value oid).length = l.toNat := length_of_tlvReady hr
  have hused : h.used = l.toNat := by rw [← hlen, h.length_value, ← hm, MgmtAddrHead.used]
  have hchecks := MgmtAddrHead.checks_of_accepted (p := Config.params) (c := s.cursor) (extra := []) hok hm
    hused.le (.inl hused)
  rw [List.append_nil] at hchecks
  exact runTlv_of_record hr ((decodeMgmtAddr_value hlo hhi s.cursor hlen).trans hchecks)

/-- Settles O30: the errors of `decodeMgmtAddr` up to the address, then those of the checks on the fields. -/
theorem mgmtAddrFieldErrors : Obligations.MgmtAddrFieldErrors := by
  refine ⟨fun s l v n hlo hhi hr hv => ⟨?_, fun hz hover => ?_, fun ifs n3 n2 n1 n0 m hz hfit hifs => ?_⟩,
    headerSelects_of_instrOfHeader fun _ => rfl, ?_⟩
  · rintro rfl
    exact runTlv_of_raised hr (decodeMgmtAddr_of_addrStrLen_zero hlo hhi s.cursor hv)
  · exact runTlv_of_raised hr (decodeMgmtAddr_of_addr_overrun hlo hhi s.cursor hv hz hover)
  · have hlen := length_of_tlvReady hr
    obtain ⟨asub, addr, rest, hn, rfl⟩ := MgmtAddrHead.exists_value hv hz (hlen ▸ hfit) hifs
    have hd := decodeMgmtAddr_value (p := Config.params) hlo hhi s.cursor hlen
    refine ⟨fun hi => ?_, fun hi hnum => ?_, fun hi hreserved hover => ?_⟩
    · exact runTlv_of_raised hr (hd.trans (MgmtAddrHead.checks_of_ifSubtype_range hi))
    · exact runTlv_of_raised hr (hd.trans (MgmtAddrHead.checks_of_reserved_nonzero hi (mt joinBe32_eq_zero_iff.1 hnum)))
    · have hok := MgmtAddrHead.interfaceOk_of_bytes (h := ⟨n, asub, addr, ifs, n3, n2, n1, n0, m, hn⟩) hi hreserved
      exact runTlv_of_raised hr (hd.trans (MgmtAddrHead.checks_of_oid_overrun hok hover))
  · have hfirst : ChecksBoundsFirst (decodeMgmtAddr Config.params) 8 := ⟨_, fun _ _ _ => rfl⟩
    exact hfirst.lengthErrors (by decide)

/-- A ready TLV whose decoder returns a record, at any parameters without `STOP_AT_END`. -/
theorem blockStepWith_of_record {p : Params} {s : State} {t : TypeCode} {l : TlvLen} {v : List Byte} {body : RecordBody}
    (hr : s.tlvReady l v) (hb : s.frame.readBytes s.cursor 2 = some (headerBytes t l)) (hp : p.stopAtEnd = false)
    (hd : registry p t t l s.cursor v = .ok body) : blockStepWith p s = .next (s.withRecord t l body) := by
  rw [blockStepWith_ready hr hb, runTlv_ready hr, hd, ← commitRecord_eq_withRecord s p hp]

/-- Settles O31: the last check rejects the bytes after the OID, or ignores them. -/
theorem mgmtAddrTrailingBytes : Obligations.MgmtAddrTrailingBytes := by
  intro s l n asub ifs n3 n2 n1 n0 m addr oid extra hlo hhi hr hn hm hextra hifs hreserved
  let h : MgmtAddrHead := ⟨n, asub, addr, ifs, n3, n2, n1, n0, m, hn⟩
  have hok : h.InterfaceOk := MgmtAddrHead.interfaceOk_of_bytes hifs hreserved
  have hm : h.oidLen.toNat = oid.length := hm
  rw [List.append_assoc] at hr
  change s.tlvReady l (h.value (oid ++ extra)) at hr
  have hlen := length_of_tlvReady hr
  have hused : h.used < l.toNat := by
    have hpos := List.length_pos_iff.2 hextra
    rw [← hlen, h.length_value, List.length_append, ← hm, MgmtAddrHead.used]
    omega
  refine ⟨?_, fun p hignore hstop hb => ?_⟩
  · exact runTlv_of_raised hr
      ((decodeMgmtAddr_value hlo hhi s.cursor hlen).trans (MgmtAddrHead.checks_of_trailing hok hused rfl))
  · exact blockStepWith_of_record hr hb hstop
      ((decodeMgmtAddr_value hlo hhi s.cursor hlen).trans
        (MgmtAddrHead.checks_of_accepted hok hm hused.le (.inr hignore)))

/-! ORG_SPECIFIC, the fallback, and the outcomes of every decoder. -/

/-- The four bytes meet the lower bound, and no 9-bit length is above the upper one. -/
theorem decodeOrgSpecific_of_length {l : TlvLen} {o0 o1 o2 sub : Byte} {info : List Byte} (c : Nat)
    (hlen : (o0 :: o1 :: o2 :: sub :: info).length = l.toNat) :
    decodeOrgSpecific 127 l c (o0 :: o1 :: o2 :: sub :: info) = .ok (.orgSpecific [o0, o1, o2] sub info) := by
  have hlo : 4 ≤ l.toNat := hlen ▸ Nat.le_add_left 4 info.length
  have hhi : l.toNat ≤ 511 := Nat.le_of_lt_succ l.isLt
  have hb : boundsCheck 127 l c = .ok () := boundsCheck_of_within c hlo hhi
  have houi : subBytes (o0 :: o1 :: o2 :: sub :: info) 0 3 = .ok [o0, o1, o2] := subBytes_of_le (by omega)
  have hsub : byteAt (o0 :: o1 :: o2 :: sub :: info) 3 = .ok sub := rfl
  have hinfo : subBytes (o0 :: o1 :: o2 :: sub :: info) 4 (l.toNat - 4) = .ok info :=
    subBytes_eq_ok.2 ⟨by omega, by simp [← hlen]⟩
  simp only [decodeOrgSpecific, hb, houi, hsub, hinfo, ok_bind]

/-- Settles O32: a value with an OUI and a subtype has length 4 at least, and no check of its bytes follows. -/
theorem orgSpecificDecodes : Obligations.OrgSpecificDecodes := by
  refine ⟨fun s l o0 o1 o2 sub info hr => ?_, headerSelects_of_instrOfHeader fun _ => rfl, ?_⟩
  · exact runTlv_of_record hr (decodeOrgSpecific_of_length s.cursor (length_of_tlvReady hr))
  · have hfirst : ChecksBoundsFirst decodeOrgSpecific 127 := ⟨_, fun _ _ _ => rfl⟩
    exact hfirst.lengthErrors (by decide)

theorem isFallback_of_range {t : TypeCode} (hlo : 9 ≤ t.toNat) (hhi : t.toNat ≤ 126) : t.isFallback = true := by
  simp [TypeCode.isFallback, hlo, hhi]

/-- Settles O33: the fallback returns the value it is handed, and the opcode map sends its codes to it. -/
theorem fallbackKeepsTheValueVerbatim : Obligations.FallbackKeepsTheValueVerbatim := by
  refine ⟨fun s t l v _ _ hr => ?_, fun t l hlo hhi => ?_⟩
  · have hd : decodeFallback t l s.cursor v = .ok (.unimplemented v) := rfl
    exact runTlv_of_record hr hd
  · rw [decodeHeaderWord, decodeHeader_encodeHeader]
    exact Laws.OpcodeMap.unimplemented t l (isFallback_of_range hlo hhi) t l rfl

/-- Settles O34: the statement is `registry_answers` with the information of the errors left out. -/
theorem decodersRaiseOnlyTheirOwnOutcomes : Obligations.DecodersRaiseOnlyTheirOwnOutcomes := by
  intro p t l c v hlen
  rcases registry_answers p t l c v hlen with hok | ⟨k, info, hr, hraises⟩
  · exact .inl hok
  · refine .inr ⟨k, info, hr, ?_⟩
    rcases hraises with ⟨hf, -, ⟨rfl, hlo⟩ | ⟨rfl, hhi⟩⟩ | ⟨hk, ht, -⟩ | ⟨rfl, ⟨ht, -, -, hu⟩ | ⟨ht, -, hu⟩⟩
    · exact .inl ⟨rfl, hf, .inl hlo⟩
    · exact .inl ⟨rfl, hf, .inr hhi⟩
    · exact .inr (.inl ⟨hk, ht⟩)
    · exact .inr (.inr ⟨rfl, .inl ⟨ht, hu⟩⟩)
    · exact .inr (.inr ⟨rfl, .inr ⟨ht, hu⟩⟩)

end Sys2Proof.Machine
end

section
/-! PROOFS. The statement of 60_exceptions.md that error endings are precise (R117): a step of the block that ends in an
error is a `raise`, and in WALK its information carries the cursor. -/

namespace Sys2Proof.Machine

theorem Ending.outcome_isError (e : Ending) : e.outcome.isError = false := by
  cases e <;> rfl

/-- All the information a decoder raises with, for a length or for a field, is about the TLV whose header is at `c`. -/
theorem DecoderRaises.tlvOffset_eq {t : TypeCode} {l : TlvLen} {c : Nat} {v : List Byte} {k : Cause} {info : ErrInfo}
    (h : DecoderRaises t l c v k info) : info.tlvOffset = c := by
  rcases h with ⟨-, rfl, -⟩ | ⟨-, -, pos, rfl, -⟩ | ⟨-, ⟨-, rfl, -⟩ | ⟨-, rfl, -⟩⟩ <;> rfl

/-- An error of a registry decoder on a ready TLV is located at the cursor. -/
theorem registry_raised_tlvOffset {p : Params} {t : TypeCode} {l : TlvLen} {s : State} {v : List Byte} {k : Cause}
    {info : ErrInfo} (hr : s.tlvReady l v) (hd : registry p t t l s.cursor v = .error (.raised k info)) :
    info.tlvOffset = s.cursor := by
  rcases registry_answers p t l s.cursor v (length_of_tlvReady hr) with ⟨body, hok⟩ | ⟨k', info', herr, hraises⟩
  · rw [hd] at hok
    cases hok
  · rw [hd] at herr
    cases herr
    exact hraises.tlvOffset_eq

/-- A step of the block that goes from no error to an error is a `raise` (60_exceptions.md R116), located at the cursor when
made in WALK: `finish` writes no error, and the other updates keep the outcome. -/
theorem blockTurn_eq_raise_of_isError {s s' : State} (h : blockTurn s = .next s') (hs : s.outcome.isError = false)
    (hs' : s'.outcome.isError = true) :
    ∃ c info, s' = s.raise c info ∧ (s.phase = .walk → info.tlvOffset = s.cursor) := by
  have not_finish (e : Ending) : s' ≠ s.finish e := by
    rintro rfl
    simp [e.outcome_isError] at hs'
  have not_kept : s'.outcome ≠ s.outcome := fun ho => by simp [ho, hs] at hs'
  rcases blockTurn_next h with ⟨-, rfl⟩ | ⟨hp, -, h⟩ | ⟨-, -, h | h | rfl⟩ | ⟨-, -, h⟩ | ⟨-, -, h⟩ | ⟨-, -, t, l, -, h⟩
  · exact absurd rfl not_kept
  · exact ⟨_, _, h, fun hw => by simp [hp] at hw⟩
  · exact absurd h (not_finish _)
  · exact absurd h (not_finish _)
  · exact absurd s.enterWalk_outcome not_kept
  · exact absurd h (not_finish _)
  · exact ⟨_, _, h, fun _ => rfl⟩
  · rcases h with ⟨-, h⟩ | ⟨v, c, info, hr, hd, h⟩ | ⟨v, body, -, -, rfl⟩
    · exact ⟨_, _, h, fun _ => rfl⟩
    · exact ⟨c, info, h, fun _ => registry_raised_tlvOffset hr hd⟩
    · exact absurd (s.withRecord_outcome t l body) not_kept

/-- Settles O41: an error ending is a `raise`, read register by register. -/
theorem errorEndingsArePrecise : Obligations.ErrorEndingsArePrecise := by
  intro s s' hb hnone h herr
  rw [step_of_blockMoves hb] at h
  have hs : s.afterTurn.outcome.isError = false := by rw [State.afterTurn_outcome, hnone]; rfl
  obtain ⟨c, info, rfl, hoffset⟩ := blockTurn_eq_raise_of_isError h hs herr
  exact ⟨rfl, rfl, rfl, rfl, rfl, rfl, hoffset⟩

end Sys2Proof.Machine
end

section
/-! PROOFS. The statements of 70_reset_and_hazards.md: the reset state (R135), RESET (R134), and that a run depends only on
its frame (R147), since every step of it commutes with an exchange of FRAME. -/

namespace Sys2Proof.Machine

/-- Settles O1: each register of the reset state, read off its definition. -/
theorem resetStateHoldsTheResetValues : Obligations.ResetStateHoldsTheResetValues := by
  unfold Obligations.ResetStateHoldsTheResetValues
  decide

/-- Settles O2: `hostReset` is the reset state with FRAME and the turns kept, whatever the phase. -/
theorem hostResetRestoresRegistersInEveryPhase : Obligations.HostResetRestoresRegistersInEveryPhase :=
  fun _ s => ⟨hostReset s, rfl, rfl, rfl, rfl⟩

/-! What the block's turn writes. -/

/-- The updates of the state the block's turn makes, whatever makes it choose one. -/
theorem blockTurn_update {s s' : State} (h : blockTurn s = .next s') :
    s' = s ∨ (∃ e, s' = s.finish e) ∨ (∃ c info, s' = s.raise c info) ∨ s' = s.enterWalk
    ∨ (s.phase = .walk ∧ ∃ t l body, s' = s.withRecord t l body) := by
  by_cases hp : s.phase = .walk
  · rcases walkTurn_ends_or_emits hp h with ⟨-, h⟩ | h | ⟨t, l, body, -, -, h⟩
    · exact .inr (.inl ⟨_, h⟩)
    · exact .inr (.inr (.inl h))
    · exact .inr (.inr (.inr (.inr ⟨hp, t, l, body, h⟩)))
  · rcases blockTurn_next h with ⟨-, h⟩ | ⟨-, -, h⟩ | ⟨-, -, h | h | h⟩ | ⟨hw, -⟩ | ⟨hw, -⟩ | ⟨hw, -⟩
    · exact .inl h
    · exact .inr (.inr (.inl ⟨_, _, h⟩))
    · exact .inr (.inl ⟨_, h⟩)
    · exact .inr (.inl ⟨_, h⟩)
    · exact .inr (.inr (.inr (.inl h)))
    · exact absurd hw hp
    · exact absurd hw hp
    · exact absurd hw hp

theorem blockTurn_keepsMemory {s s' : State} (h : blockTurn s = .next s') : s.KeepsMemory s' := by
  rcases blockTurn_update h with rfl | ⟨e, rfl⟩ | ⟨c, info, rfl⟩ | rfl | ⟨-, t, l, body, rfl⟩
  · exact ⟨rfl, rfl, rfl⟩
  · exact s.keepsMemory_finish e
  · exact s.keepsMemory_raise c info
  · exact s.keepsMemory_enterWalk
  · exact s.keepsMemory_withRecord t l body

/-- In WALK the cursor is past the envelope (10_state.md R22), and a turn of the block keeps it there. -/
theorem blockTurn_keeps_cursor_in_payload {s s' : State} (h : blockTurn s = .next s')
    (hc : s.phase = .walk → 14 ≤ s.cursor) : s'.phase = .walk → 14 ≤ s'.cursor := by
  rcases blockTurn_update h with rfl | ⟨e, rfl⟩ | ⟨c, info, rfl⟩ | rfl | ⟨hp, t, l, body, rfl⟩
  · exact hc
  · simp
  · simp
  · simp
  · have := hc hp
    rw [State.withRecord_cursor]
    omega

/-! The run over another FRAME. -/

/-- What START establishes of a run that is to be compared with the same run over the FRAME `m`, and the block keeps: the
host does not move, the walk stays in the payload, and the two FRAMEs agree on every byte the block reads. -/
structure State.RunComparable (m : Memory) (s : State) : Prop where
  turns : s.turns = []
  cursor : s.phase = .walk → 14 ≤ s.cursor
  agrees : s.AgreesOutsideSourceMac m

theorem State.RunComparable.of_step {m : Memory} {s s' : State} (h : s.RunComparable m) (hs : step s = .next s') :
    s'.RunComparable m := by
  obtain ⟨hturns, hcursor, hagrees⟩ := h
  rw [step_of_turns_nil hturns] at hs
  obtain ⟨hframe, hlen, hturns'⟩ := blockTurn_keepsMemory hs
  refine ⟨hturns'.trans hturns, blockTurn_keeps_cursor_in_payload hs hcursor, ?_⟩
  rwa [State.AgreesOutsideSourceMac, hframe, hlen]

theorem State.RunComparable.step_withFrame {m : Memory} {s : State} (h : s.RunComparable m) :
    step (s.withFrame m) = answerWithFrame m (step s) := by
  have hturns : (s.withFrame m).turns = [] := h.turns
  rw [step_of_turns_nil h.turns, step_of_turns_nil hturns, blockTurn_withFrame h.agrees h.cursor]

/-- A whole run answers alike over the other FRAME, by induction on its steps. -/
theorem State.RunComparable.stepRun_withFrame {m : Memory} {s : State} (h : s.RunComparable m) (k : Nat) :
    stepRun k (s.withFrame m) = answerWithFrame m (stepRun k s) := by
  induction k generalizing s with
  | zero => rfl
  | succ k ih =>
    rw [stepRun, stepRun, h.step_withFrame]
    cases hs : step s with
    | next s' => exact ih (h.of_step hs)
    | fault f => rfl
    | refused r => rfl

/-! START, the beginning of the run. -/

theorem eq_startRun_of_start {p : Params} {n : Nat} {s s' : State} (h : hostOp p (.start n) s = .next s') :
    s' = startRun n s := by
  rcases hostOp_next h with ⟨⟨⟩, -⟩ | ⟨n', ⟨⟩, -, -, -, hs⟩ | ⟨a, bs, ⟨⟩, -⟩ | ⟨hop | ⟨r, ⟨⟩⟩, -⟩
  · exact hs
  · cases hop

theorem runComparable_startRun {n : Nat} {s : State} {m : Memory} (hs : s.turns = [])
    (hm : ∀ a, a < n → s.frame.read a = m.read a) : (startRun n s).RunComparable m where
  turns := hs
  cursor := by simp [startRun]
  agrees := fun a ha _ => hm a ha

/-- START clears what an earlier run left (10_state.md R27): two of them differ in FRAME alone. -/
theorem startRun_eq_withFrame {n : Nat} {s t : State} (h : s.turns = t.turns) :
    startRun n t = (startRun n s).withFrame t.frame := by
  simp only [startRun, State.withFrame, h]

/-- Settles O53: the second run is the first over another FRAME, and `stepRun_withFrame` gives its states. -/
theorem aRunDependsOnlyOnItsFrame : Obligations.ARunDependsOnlyOnItsFrame := by
  intro n k s t s0 t0 s' hs ht hframe hstart hstart' hrun
  obtain rfl := eq_startRun_of_start hstart
  obtain rfl := eq_startRun_of_start hstart'
  refine ⟨s'.withFrame t.frame, ?_, s'.sameRegisters_withFrame t.frame⟩
  rw [startRun_eq_withFrame (hs.trans ht.symm), (runComparable_startRun hs hframe).stepRun_withFrame, hrun,
    answerWithFrame_next]

end Sys2Proof.Machine
end

section
/-! PROOFS. The statements of 30_encoding.md on decoding: decode and encode are inverse (sections 1 to 3), what the
envelope decoder rejects (R49, R51), and words written out from the spec. -/

namespace Sys2Proof

/-! TLV headers. -/

/-- The encoding of a TLV instruction is its header (30_encoding.md R53). -/
theorem encode_eq_headerBytes {i : Instr} {t : TypeCode} {l : TlvLen} (hi : i.header? = some (t, l)) :
    encode i = headerBytes t l := by
  cases i
  case envelope => cases hi
  all_goals (cases hi; rfl)

theorem format_eq_tlvhdr16 {i : Instr} {t : TypeCode} {l : TlvLen} (hi : i.header? = some (t, l)) :
    i.format = .tlvhdr16 := by
  cases i
  case envelope => cases hi
  all_goals rfl

/-- The opcode map gives every well-formed TLV instruction back from its header (30_encoding.md R56). -/
theorem instrOfHeader_of_header? {i : Instr} {t : TypeCode} {l : TlvLen} (hwf : i.wellFormed = true)
    (hi : i.header? = some (t, l)) : instrOfHeader t l = i := by
  cases i
  case envelope => cases hi
  case unimplemented t' l' => exact Laws.OpcodeMap.unimplemented t' l' hwf t l hi
  all_goals (cases hi; rfl)

theorem decodeTlvHeader_headerBytes (t : TypeCode) (l : TlvLen) (rest : List Byte) :
    decodeTlvHeader (headerBytes t l ++ rest) = .instr (instrOfHeader t l) rest := by
  obtain ⟨b0, b1, hbytes, hjoin⟩ := joinBe16_bytesOfNat (encodeHeader t l)
  rw [headerBytes, hbytes, List.cons_append, List.cons_append, List.nil_append, decodeTlvHeader, hjoin,
    decodeHeaderWord, decodeHeader_encodeHeader]

theorem decode_encode_of_header? {i : Instr} {t : TypeCode} {l : TlvLen} (hwf : i.wellFormed = true)
    (hi : i.header? = some (t, l)) (rest : List Byte) : decode i.format (encode i ++ rest) = .instr i rest := by
  rw [format_eq_tlvhdr16 hi, encode_eq_headerBytes hi, decode, decodeTlvHeader_headerBytes,
    instrOfHeader_of_header? hwf hi]

/-- Any two bytes are the encoding of the instruction they decode to (30_encoding.md R57). -/
theorem encode_decodeHeaderWord (b0 b1 : Byte) : encode (decodeHeaderWord (joinBe16 b0 b1)) = [b0, b1] := by
  obtain ⟨hi, -⟩ := decodeHeaderWord_header? (joinBe16 b0 b1)
  exact (encode_eq_headerBytes hi).trans (headerBytes_decodeHeader b0 b1)

/-! The envelope. -/

/-- The three parts of an envelope that the decoder looks at or skips, in front of any bytes: what it answers by the
EtherType and the destination (40_frame_validator.md R64, R66). -/
theorem decodeEnvelope_append {dst src et rest : List Byte} (hdst : dst.length = 6) (hsrc : src.length = 6)
    (het : et.length = 2) : decodeEnvelope (dst ++ src ++ et ++ rest) =
      if et ≠ [0x88, 0xCC] then .rejected .etherTypeMismatch
      else if dst ≠ lldpDstMac then .rejected .dstMacMismatch
      else .instr .envelope rest := by
  have hlen : ¬ (dst ++ src ++ et ++ rest).length < envelopeLen := by
    simp only [List.length_append, hdst, hsrc, het, envelopeLen]
    omega
  have htype : ((dst ++ src ++ et ++ rest).drop 12).take 2 = et := by
    rw [List.append_assoc (dst ++ src), List.drop_left' (by simp [hdst, hsrc]), List.take_left' het]
  have hmac : (dst ++ src ++ et ++ rest).take 6 = dst := by
    rw [List.append_assoc, List.append_assoc, List.take_left' hdst]
  have hrest : (dst ++ src ++ et ++ rest).drop envelopeLen = rest :=
    List.drop_left' (by simp [hdst, hsrc, het, envelopeLen])
  have hconst : bytesOfNat 2 lldpEtherType.toNat = [0x88, 0xCC] := by decide
  rw [decodeEnvelope, if_neg hlen, htype, hmac, hrest, hconst]

theorem length_bytesOfNat (n w : Nat) : (bytesOfNat n w).length = n := by
  induction n with
  | zero => rfl
  | succ n ih => rw [bytesOfNat, List.length_cons, ih]

/-- The source MAC is a don't-care of the envelope (30_encoding.md R50). -/
theorem decodeEnvelope_envelopeBytes (src : BitVec 48) (rest : List Byte) :
    decodeEnvelope (envelopeBytes src ++ rest) = .instr .envelope rest := by
  rw [envelopeBytes, decodeEnvelope_append rfl (length_bytesOfNat 6 _) (length_bytesOfNat 2 _),
    if_neg (not_not.2 (by decide)), if_neg (not_not.2 rfl)]

/-- Settles O11: ENVELOPE by its own decoder, every other instruction by its header. -/
theorem decodeInvertsEncode : Obligations.DecodeInvertsEncode := by
  refine ⟨fun i rest hwf => ?_, fun b0 b1 rest => ?_, decodeEnvelope_envelopeBytes⟩
  · cases i
    case envelope => exact decodeEnvelope_envelopeBytes 0 rest
    all_goals exact decode_encode_of_header? hwf rfl rest
  · obtain ⟨-, hwf⟩ := decodeHeaderWord_header? (joinBe16 b0 b1)
    exact ⟨_, rfl, hwf, encode_decodeHeaderWord b0 b1⟩

/-- Settles O12: the length is checked first, and `decodeEnvelope_append` gives the order of the other two checks. -/
theorem envelopeDecoderRejectsByName : Obligations.EnvelopeDecoderRejectsByName := by
  refine ⟨fun bs hlen => if_pos hlen, fun dst src rest hi lo hdst hsrc hne => ?_, fun dst src rest hdst hsrc hne => ?_⟩
  · have hsplit : dst ++ src ++ hi :: lo :: rest = dst ++ src ++ [hi, lo] ++ rest := by simp
    rw [hsplit, decode, decodeEnvelope_append hdst hsrc rfl, if_pos (by simpa using hne)]
  · have hsplit : dst ++ src ++ 0x88 :: 0xCC :: rest = dst ++ src ++ [0x88, 0xCC] ++ rest := by simp
    rw [hsplit, decode, decodeEnvelope_append hdst hsrc rfl, if_neg (not_not.2 rfl)]
    exact if_pos hne

/-- Settles O8: nine closed words, each run through the decoder. -/
theorem writtenOutWordsDecode : Obligations.WrittenOutWordsDecode := by
  unfold Obligations.WrittenOutWordsDecode
  decide

end Sys2Proof
end

section
/-! PROOFS. The statements on the step itself: it runs the instruction its bytes decode to (41_header_and_sequencer.md
section 2), it stutters in IDLE and DONE (60_exceptions.md R132), and it is the pseudocode's step (R70, R74). -/

namespace Sys2Proof.Machine

/-! The WALK step of the pseudocode, one lemma per case of what is left of the frame. -/

section
variable {p : Params} {s : State}

theorem walkWith_of_cursor_past_end (hc : s.frameLen < s.cursor) : walkWith p s = .refused .readPastFrame := by
  simp only [walkWith, if_pos hc]

theorem walkWith_of_payload_end (hc : s.cursor = s.frameLen) : walkWith p s = .next (s.finish .ok) := by
  have hlt : ¬ s.frameLen < s.cursor := by omega
  have hrem : s.frameLen - s.cursor = 0 := by omega
  simp only [walkWith, if_neg hlt, if_pos hrem]

/-- Where bytes are left, the pseudocode first checks that they are not one byte (41_header_and_sequencer.md R72). -/
theorem walkWith_of_one_byte_left (hc : s.cursor + 1 = s.frameLen) :
    walkWith p s = .next (s.raise .header { tlvOffset := s.cursor, avail := 1, pos := s.cursor }) := by
  have hlt : ¬ s.frameLen < s.cursor := by omega
  have hrem : ¬ s.frameLen - s.cursor = 0 := by omega
  have hone : ¬ s.frameLen - s.cursor ≠ 1 := by omega
  simp only [walkWith, if_neg hlt, if_neg hrem]
  rw [settle_check, if_neg hone]
  rfl

variable (hh : s.cursor + 2 ≤ s.frameLen)
include hh

theorem walkWith_of_unread_header {h : Halt} (hm : s.memRead s.cursor 2 = .error h) : walkWith p s = s.halt h := by
  have hlt : ¬ s.frameLen < s.cursor := by omega
  have hrem : ¬ s.frameLen - s.cursor = 0 := by omega
  have hone : s.frameLen - s.cursor ≠ 1 := by omega
  simp only [walkWith, if_neg hlt, if_neg hrem]
  rw [settle_check, if_pos hone, hm]
  rfl

/-- From the value truncation check on, the pseudocode is the shared WALK operation with the registry's decoder
(41_header_and_sequencer.md R70, R74). -/
theorem walkWith_of_header {w : BitVec (8 * 2)} (hm : s.memRead s.cursor 2 = .ok w) : walkWith p s
    = runHeader p (registry p (decodeHeader w).1) (decodeHeader w).1 (decodeHeader w).2 s := by
  have hlt : ¬ s.frameLen < s.cursor := by omega
  have hrem : ¬ s.frameLen - s.cursor = 0 := by omega
  have hone : s.frameLen - s.cursor ≠ 1 := by omega
  simp only [walkWith, if_neg hlt, if_neg hrem]
  rw [settle_check, if_pos hone, hm, ok_bind, settle_check, runHeader, ite_not]
  congr 1
  cases s.bytes (s.cursor + 2) (decodeHeader w).2.toNat with
  | error h => rfl
  | ok v =>
    simp only [ok_bind]
    cases registry p (decodeHeader w).1 (decodeHeader w).1 (decodeHeader w).2 s.cursor v with
    | error h => rfl
    | ok body => rfl

end

/-- In WALK, fetching, decoding and running the instruction is the pseudocode's step, by what is left of the frame. -/
theorem blockTurn_eq_walkWith {s : State} (hp : s.phase = .walk) : blockTurn s = walkWith Config.params s := by
  obtain hc | hc | hc | hh : s.frameLen < s.cursor ∨ s.cursor = s.frameLen ∨ s.cursor + 1 = s.frameLen
      ∨ s.cursor + 2 ≤ s.frameLen := by omega
  · simp only [walkWith_of_cursor_past_end hc, blockTurn, hp, fetchTlv, if_pos hc, State.halt]
  · rw [blockTurn_of_payload_end hp hc, walkWith_of_payload_end hc]
  · rw [blockTurn_of_one_byte_left hp hc, walkWith_of_one_byte_left hc]
  · have hlt : ¬ s.frameLen < s.cursor := by omega
    simp only [blockTurn, hp, fetchTlv, if_neg hlt, walkEnding_eq_none.2 hh]
    cases hm : s.memRead s.cursor 2 with
    | error h => exact (walkWith_of_unread_header hh hm).symm
    | ok w =>
      obtain ⟨hi, hwf⟩ := decodeHeaderWord_header? w
      rw [walkWith_of_header hh hm]
      exact (exec_eq_runTlv s hi hwf).trans (runTlv_of_header hp hh)

theorem blockTurn_eq_blockStepWith (s : State) : blockTurn s = blockStepWith Config.params s := by
  cases hp : s.phase with
  | walk => rw [blockTurn_eq_walkWith hp, blockStepWith, hp]
  | idle | validate | done => simp only [blockTurn, blockStepWith, hp, exec]

/-- Settles O15: the two steps take the same turn, and the block's turn is the pseudocode's by phase. -/
theorem stepIsTheSpecsPseudocode : Obligations.StepIsTheSpecsPseudocode := by
  intro s
  rcases ht : s.turns with _ | ⟨_ | op, rest⟩ <;> simp only [step, stepWith, ht, blockTurn_eq_blockStepWith]

/-! The step runs the instruction its bytes decode to. -/

theorem blockTurn_of_validate {s : State} (hp : s.phase = .validate) : blockTurn s = exec .envelope s := by
  simp only [blockTurn, hp]

/-- An envelope decodes to the one instruction of its format. -/
theorem eq_envelope_of_decode {bs rest : List Byte} {i : Instr} (h : decode .eth14 bs = .instr i rest) :
    i = .envelope := by
  rw [decode, decodeEnvelope] at h
  split at h
  · cases h
  · split at h
    · cases h
    · split at h
      · cases h
      · cases h
        rfl

/-- A TLV instruction decodes from its first two bytes. -/
theorem exists_of_decode_tlvhdr16 {bs rest : List Byte} {i : Instr} (h : decode .tlvhdr16 bs = .instr i rest) :
    ∃ b0 b1, bs = b0 :: b1 :: rest ∧ i = decodeHeaderWord (joinBe16 b0 b1) := by
  rcases bs with _ | ⟨b0, _ | ⟨b1, tail⟩⟩
  · cases h
  · cases h
  · cases h
    exact ⟨b0, b1, rfl, rfl⟩

/-- The first two bytes of a block read are a header read. -/
theorem readBytes_two_of_cons {m : Memory} {a n : Nat} {b0 b1 : Byte} {rest : List Byte}
    (h : m.readBytes a n = some (b0 :: b1 :: rest)) : m.readBytes a 2 = some [b0, b1] := by
  have hlen := Memory.length_readBytes h
  rw [List.length_cons, List.length_cons] at hlen
  obtain ⟨h2, -⟩ := Memory.readBytes_add (n := 2) (k := rest.length) (by rwa [show 2 + rest.length = n by omega])
  exact h2

theorem blockTurn_of_decode {s : State} {i : Instr} {n : Nat} {bs rest : List Byte} (hp : s.phase = .walk)
    (hh : s.cursor + 2 ≤ s.frameLen) (hr : s.frame.readBytes s.cursor n = some bs)
    (hd : decode .tlvhdr16 bs = .instr i rest) : blockTurn s = exec i s := by
  obtain ⟨b0, b1, rfl, rfl⟩ := exists_of_decode_tlvhdr16 hd
  simp only [blockTurn, hp, fetchTlv_eq_instr hh (readBytes_two_of_cons hr)]

/-- Settles O13: the agent by the turn, the instruction by the phase. -/
theorem stepRunsTheDecodedInstruction : Obligations.StepRunsTheDecodedInstruction := by
  intro s
  refine ⟨fun i n bs rest hb hp hh hr hd => ?_, fun hb hp => ?_, fun i n bs rest hb hp _ hd => ?_, fun op rest ht => ?_⟩
  · rw [step_of_blockMoves hb]
    exact blockTurn_of_decode (s := s.afterTurn) hp hh hr hd
  · rw [step_of_blockMoves hb]
    exact blockTurn_of_validate (s := s.afterTurn) hp
  · rw [step_of_blockMoves hb, eq_envelope_of_decode hd]
    exact blockTurn_of_validate (s := s.afterTurn) hp
  · simp only [step, ht]

/-- Settles O14: `blockTurn` leaves the state as it is in both phases. -/
theorem idleAndDoneKeepEveryRegister : Obligations.IdleAndDoneKeepEveryRegister := by
  intro s hb hp
  rw [step_of_blockMoves hb]
  exact blockTurn_of_not_running (s := s.afterTurn) hp

end Sys2Proof.Machine
end

section
/-! PROOFS. The invariants of 10_state.md and 60_exceptions.md on the registers: each holds at reset and after START,
looks at neither FRAME nor the turns, and is kept by the block's turn (10_state.md R22, 60_exceptions.md R122, R123,
41_header_and_sequencer.md R77, 30_encoding.md section 4). -/

namespace Sys2Proof.Machine

/-! What a step keeps, once: the host's part of every invariant on the registers. -/

/-- A predicate on the registers that RESET and START establish. -/
structure HoldsAtRunStart (P : State → Prop) : Prop where
  hostReset : ∀ s, P (hostReset s)
  startRun : ∀ n s, P (startRun n s)
  congr : ∀ {s t : State}, s.sameRegisters t → P s → P t

/-- Of such a predicate only the block's turn is left to be checked. -/
theorem HoldsAtRunStart.of_step {P : State → Prop} (hP : HoldsAtRunStart P) {s s' : State} (hs : P s)
    (h : step s = .next s') (hblock : blockTurn s.afterTurn = .next s' → P s') : P s' := by
  rcases step_cases s with ⟨-, hstep⟩ | ⟨op, rest, -, hstep⟩
  · exact hblock (hstep ▸ h)
  · have hturn : P s.afterTurn := hP.congr rfl hs
    rw [hstep] at h
    rcases hostOp_next h with ⟨-, rfl⟩ | ⟨n, -, -, -, -, rfl⟩ | ⟨a, bs, -, -, rfl⟩ | ⟨-, rfl⟩
    · exact hP.hostReset _
    · exact hP.startRun n _
    · exact hP.congr rfl hturn
    · exact hturn

/-- A predicate that speaks of the registers only, since an exchange of FRAME and the turns keeps it. -/
theorem of_sameRegisters {P : State → Prop} (hP : ∀ (s : State) (m : Memory) (ts : List Turn),
    P s → P { s with frame := m, turns := ts }) {s t : State} (h : s.sameRegisters t) (hs : P s) : P t :=
  h ▸ hP s t.frame t.turns hs

/-! The cursor invariants (10_state.md R22). -/

theorem payloadUsed_append (rs : List Record) (r : Record) :
    payloadUsed (rs ++ [r]) = payloadUsed rs + (2 + r.length.toNat) := by
  simp [payloadUsed]

theorem holdsAtRunStart_cursorInv : HoldsAtRunStart CursorInv where
  hostReset s := by simp [CursorInv, hostReset, State.reset]
  startRun n s := by simp [CursorInv, startRun, State.reset]
  congr := of_sameRegisters fun _ _ _ hs => hs

section
variable {s : State} (hs : CursorInv s)
include hs

/-- In WALK the records and the cursor agree, emitted records or not. -/
theorem CursorInv.of_walk (hp : s.phase = .walk) : 14 ≤ s.cursor ∧ 14 + payloadUsed s.out = s.cursor := by
  obtain ⟨-, h14, hsum, -, -⟩ := hs
  exact ⟨h14 hp, hsum (.inr hp)⟩

/-- In VALIDATE the run has left nothing yet. -/
theorem CursorInv.of_validate (hp : s.phase = .validate) : s.cursor = 0 ∧ s.out = [] ∧ s.recCount = 0 := by
  obtain ⟨-, -, -, hcount, hval⟩ := hs
  obtain ⟨hcursor, hout⟩ := hval hp
  exact ⟨hcursor, hout, by rw [hcount, hout]; rfl⟩

/-- An ending keeps the cursor and the records. -/
theorem CursorInv.of_ended {s' : State} (hp : s'.phase = .done) (hcursor : s'.cursor = s.cursor)
    (hlen : s'.frameLen = s.frameLen) (hout : s'.out = s.out) (hcount : s'.recCount = s.recCount) : CursorInv s' := by
  obtain ⟨hle, -, hsum, hrec, -⟩ := hs
  simp only [CursorInv, hp, hcursor, hlen, hout, hcount]
  exact ⟨hle, by simp, fun h => hsum (h.imp_right (by simp)), hrec, by simp⟩

theorem CursorInv.finish (e : Ending) : CursorInv (s.finish e) := hs.of_ended rfl rfl rfl rfl rfl

theorem CursorInv.raise (c : Cause) (info : ErrInfo) : CursorInv (s.raise c info) := hs.of_ended rfl rfl rfl rfl rfl

theorem CursorInv.enterWalk (hp : s.phase = .validate) (hlen : 14 ≤ s.frameLen) : CursorInv s.enterWalk := by
  obtain ⟨-, hout, hcount⟩ := hs.of_validate hp
  simp [CursorInv, hlen, hout, hcount, payloadUsed]

theorem CursorInv.withRecord {t : TypeCode} {l : TlvLen} (hp : s.phase = .walk)
    (hlen : s.cursor + 2 + l.toNat ≤ s.frameLen) (body : RecordBody) : CursorInv (s.withRecord t l body) := by
  obtain ⟨h14, hsum⟩ := hs.of_walk hp
  obtain ⟨-, -, -, hcount, -⟩ := hs
  simp only [CursorInv, State.withRecord_cursor, State.withRecord_frameLen, State.withRecord_phase,
    State.withRecord_out, State.withRecord_recCount, payloadUsed_append, List.length_append,
    List.length_singleton, hp, hcount]
  refine ⟨hlen, fun _ => ?_, fun _ => ?_, trivial, by simp⟩
  · omega
  · omega

theorem CursorInv.of_blockTurn {s' : State} (h : blockTurn s = .next s') : CursorInv s' := by
  rcases blockTurn_next h with ⟨-, rfl⟩ | ⟨-, -, rfl⟩ | ⟨hp, hlen, rfl | rfl | rfl⟩ | ⟨-, -, rfl⟩ | ⟨-, -, rfl⟩
    | ⟨hp, -, t, l, -, ⟨-, rfl⟩ | ⟨v, c, info, -, -, rfl⟩ | ⟨v, body, ⟨-, hlen, -⟩, -, rfl⟩⟩
  · exact hs
  · exact hs.raise _ _
  · exact hs.finish _
  · exact hs.finish _
  · exact hs.enterWalk hp hlen
  · exact hs.finish _
  · exact hs.raise _ _
  · exact hs.raise _ _
  · exact hs.raise _ _
  · exact hs.withRecord hp hlen body

end

/-- Settles O44: `CursorInv.of_blockTurn` for the block, and RESET and START for the host. -/
theorem everyStepKeepsTheCursorInvariants : Obligations.EveryStepKeepsTheCursorInvariants := by
  intro s s' hs h
  have hturn : CursorInv s.afterTurn := hs
  exact holdsAtRunStart_cursorInv.of_step hs h hturn.of_blockTurn

/-! The table of error information (60_exceptions.md R122). -/

/-- Before an ending, outcome NONE and nothing in the error registers. -/
structure State.Unended (s : State) : Prop where
  outcome : s.outcome = .none
  errDetail : s.errDetail = 0
  errInfo : s.errInfoZero

/-- With outcome NONE the table wants detail 0 and empty error registers. -/
theorem errInfoRow_of_outcome_none {s : State} (ho : s.outcome = .none) :
    s.errInfoRow ↔ s.errDetail = 0 ∧ s.errInfoZero := by
  have hd : s.errDetail = 0 ↔ s.errDetail.toNat = 0 := by rw [← BitVec.toNat_inj]; rfl
  rw [hd]
  simp only [State.errInfoRow, ho]
  rcases s.errDetail.toNat with _ | n
  · simp
  · simp

theorem State.Unended.statusInv {s : State} (h : s.Unended) (hp : s.phase.running = true) : StatusInv s := by
  obtain ⟨ho, hd, hz⟩ := h
  refine ⟨?_, (errInfoRow_of_outcome_none ho).2 ⟨hd, hz⟩, ?_⟩
  · rcases Phase.running_eq_true_iff.1 hp with hp | hp <;> simp [hp, ho]
  · rcases Phase.running_eq_true_iff.1 hp with hp | hp <;> simp [hp]

/-- A run in progress has not ended (10_state.md R14, R18). -/
theorem StatusInv.unended {s : State} (hs : StatusInv s) (hp : s.phase.running = true) : s.Unended := by
  obtain ⟨hdone, hrow, -⟩ := hs
  have hne : s.phase ≠ .done := fun h => by simp [h, Phase.running] at hp
  have ho : s.outcome = .none := not_not.1 (mt hdone.2 hne)
  obtain ⟨hd, hz⟩ := (errInfoRow_of_outcome_none ho).1 hrow
  exact ⟨ho, hd, hz⟩

theorem holdsAtRunStart_statusInv : HoldsAtRunStart StatusInv where
  hostReset s := ⟨by simp [hostReset, State.reset], ⟨rfl, rfl, rfl, rfl, rfl, rfl, rfl⟩, fun _ => ⟨rfl, rfl, rfl, rfl⟩⟩
  startRun n s := State.Unended.statusInv ⟨rfl, rfl, rfl, rfl, rfl, rfl, rfl, rfl, rfl⟩ rfl
  congr := of_sameRegisters fun _ _ _ hs => hs

/-! Each ending of a run writes a row of the table. -/

section
variable {s : State}

theorem statusInv_finish (h : s.Unended) (e : Ending) : StatusInv (s.finish e) := by
  have hz : (s.finish e).errInfoZero := h.errInfo
  refine ⟨by cases e <;> simp [Ending.outcome], ?_, by simp⟩
  cases e
  · exact hz
  · exact hz
  · exact hz

theorem statusInv_raise {c : Cause} {info : ErrInfo} (h : (s.raise c info).errInfoRow) : StatusInv (s.raise c info) :=
  ⟨by cases c <;> simp [Cause.outcome], h, by simp⟩

theorem errInfoRow_raise_envelope (hlen : s.frameLen < 14) :
    (s.raise .envelope { avail := s.frameLen }).errInfoRow := ⟨rfl, rfl, rfl, rfl, rfl, rfl, rfl, hlen⟩

theorem errInfoRow_raise_header (hc : s.cursor + 1 = s.frameLen) :
    (s.raise .header { tlvOffset := s.cursor, avail := 1, pos := s.cursor }).errInfoRow :=
  ⟨rfl, rfl, rfl, rfl, rfl, rfl, rfl, hc⟩

theorem errInfoRow_raise_value {t : TypeCode} {l : TlvLen} (hh : s.cursor + 2 ≤ s.frameLen)
    (ht : s.frameLen < s.cursor + 2 + l.toNat) : (s.raise .value
      { tlvOffset := s.cursor, type := t, len := l, avail := s.frameLen - s.cursor - 2
        pos := s.cursor + 2 }).errInfoRow := by
  have havail : s.cursor + 2 + (s.frameLen - s.cursor - 2) = s.frameLen := by omega
  have hcut : s.frameLen - s.cursor - 2 < l.toNat := by omega
  exact ⟨rfl, rfl, rfl, havail, hcut, rfl⟩

theorem detail_of_invalidFieldValue {k : Cause} (hk : k.outcome = .invalidFieldValue) :
    1 ≤ k.detail.toNat ∧ k.detail.toNat ≤ 6 := by
  cases k
  case mgmtAddrLenZero | mgmtAddrOverrun | mgmtIfSubtypeRange | mgmtIfReservedNonzero | mgmtOidOverrun | mgmtTrailing =>
    decide
  all_goals cases hk

/-- An error of the registry's decoder on a ready TLV is one of those listed for its type. -/
theorem decoderRaises_of_registry {p : Params} {t : TypeCode} {l : TlvLen} {v : List Byte} {k : Cause} {info : ErrInfo}
    (hr : s.tlvReady l v) (hd : registry p t t l s.cursor v = .error (.raised k info)) :
    DecoderRaises t l s.cursor v k info := by
  rcases registry_answers p t l s.cursor v (length_of_tlvReady hr) with ⟨body, hok⟩ | ⟨k', info', herr, hraises⟩
  · rw [hd] at hok
    cases hok
  · rw [hd] at herr
    cases herr
    exact hraises

/-- Whatever a decoder raises is a row of the table (60_exceptions.md R122). -/
theorem errInfoRow_raise_of_decoderRaises {t : TypeCode} {l : TlvLen} {v : List Byte} {k : Cause} {info : ErrInfo}
    (hlen : s.cursor + 2 + l.toNat ≤ s.frameLen) (h : DecoderRaises t l s.cursor v k info) :
    (s.raise k info).errInfoRow := by
  rcases h with ⟨-, rfl, ⟨rfl, hlo⟩ | ⟨rfl, hhi⟩⟩ | ⟨hk, rfl, pos, rfl, hpos, hpos'⟩
    | ⟨rfl, ⟨rfl, rfl, hl, -⟩ | ⟨ht, rfl, -⟩⟩
  · exact ⟨rfl, rfl, rfl, hlo, rfl, hlen⟩
  · exact ⟨rfl, rfl, rfl, hhi, rfl, hlen⟩
  · obtain ⟨hd, hd'⟩ := detail_of_invalidFieldValue hk
    simp only [State.errInfoRow, State.raise_outcome, hk]
    exact ⟨hd, hd', rfl, rfl, rfl, rfl, rfl, hpos, hpos', hlen⟩
  · have hpos : s.cursor + 3 ≤ s.cursor + 2 + l.toNat := by omega
    exact ⟨rfl, rfl, rfl, rfl, hpos, hlen, .inl ⟨rfl, rfl⟩⟩
  · exact ⟨rfl, rfl, rfl, rfl, Nat.le_add_right _ _, hlen, .inr ⟨ht, rfl⟩⟩

theorem StatusInv.of_blockTurn (hs : StatusInv s) {s' : State} (h : blockTurn s = .next s') : StatusInv s' := by
  have unended {ph : Phase} (hp : s.phase = ph) (hr : ph.running = true) : s.Unended := hs.unended (hp ▸ hr)
  rcases blockTurn_next h with ⟨-, rfl⟩ | ⟨-, hlen, rfl⟩ | ⟨hp, -, rfl | rfl | rfl⟩ | ⟨hp, -, rfl⟩ | ⟨-, hc, rfl⟩
    | ⟨hp, hh, t, l, -, ⟨ht, rfl⟩ | ⟨v, c, info, hr, hd, rfl⟩ | ⟨v, body, -, -, rfl⟩⟩
  · exact hs
  · exact statusInv_raise (errInfoRow_raise_envelope hlen)
  · exact statusInv_finish (unended hp rfl) _
  · exact statusInv_finish (unended hp rfl) _
  · obtain ⟨ho, hd, hz⟩ := unended hp rfl
    exact State.Unended.statusInv ⟨ho, hd, hz⟩ rfl
  · exact statusInv_finish (unended hp rfl) _
  · exact statusInv_raise (errInfoRow_raise_header hc)
  · exact statusInv_raise (errInfoRow_raise_value hh ht)
  · have ⟨_, hlen, _⟩ := hr
    exact statusInv_raise (errInfoRow_raise_of_decoderRaises hlen (decoderRaises_of_registry hr hd))
  · obtain ⟨ho, hd, hz⟩ := unended hp rfl
    exact State.Unended.statusInv ⟨ho, hd, hz⟩ (congrArg Phase.running hp)

end

/-- Settles O45: `StatusInv.of_blockTurn` for the block, and RESET and START for the host. -/
theorem everyStepKeepsTheErrorTable : Obligations.EveryStepKeepsTheErrorTable := by
  intro s s' hs h
  have hturn : StatusInv s.afterTurn := hs
  exact holdsAtRunStart_statusInv.of_step hs h hturn.of_blockTurn

/-! What an ending says of the walk (41_header_and_sequencer.md R77, 60_exceptions.md R123). -/

/-- Without one of the two outcomes that it speaks of, the ending invariant says nothing. -/
theorem endingInv_of_outcome {s : State} (hok : s.outcome ≠ .ok) (hnot : s.outcome ≠ .notLldp) : EndingInv s :=
  ⟨fun h => absurd h hok, fun h => absurd h hnot⟩

theorem endingInv_of_outcome_none {s : State} (ho : s.outcome = .none) : EndingInv s :=
  endingInv_of_outcome (by simp [ho]) (by simp [ho])

theorem holdsAtRunStart_endingInv : HoldsAtRunStart EndingInv where
  hostReset _ := endingInv_of_outcome_none rfl
  startRun _ _ := endingInv_of_outcome_none rfl
  congr := of_sameRegisters fun _ _ _ hs => hs

section
variable {s : State} (hc : CursorInv s)
include hc

theorem endingInv_finish_ok (hp : s.phase = .walk) (hend : s.cursor = s.frameLen) : EndingInv (s.finish .ok) := by
  obtain ⟨-, hsum⟩ := hc.of_walk hp
  exact ⟨fun _ => ⟨hsum.trans hend, hend⟩, fun h => by cases h⟩

theorem endingInv_finish_notLldp (hp : s.phase = .validate) {e : Ending} (he : e.outcome = .notLldp) :
    EndingInv (s.finish e) := by
  obtain ⟨hcursor, hout, hcount⟩ := hc.of_validate hp
  exact ⟨fun h => by simp [he] at h, fun _ => ⟨hout, hcount, hcursor⟩⟩

omit hc in
theorem endingInv_raise (c : Cause) (info : ErrInfo) : EndingInv (s.raise c info) :=
  endingInv_of_outcome (by cases c <;> simp [Cause.outcome]) (by cases c <;> simp [Cause.outcome])

theorem EndingInv.of_blockTurn (hs : StatusInv s) (he : EndingInv s) {s' : State} (h : blockTurn s = .next s') :
    EndingInv s' := by
  have outcome {ph : Phase} (hp : s.phase = ph) (hr : ph.running = true) : s.outcome = .none :=
    (hs.unended (hp ▸ hr)).outcome
  rcases blockTurn_next h with ⟨-, rfl⟩ | ⟨-, -, rfl⟩ | ⟨hp, -, rfl | rfl | rfl⟩ | ⟨hp, hend, rfl⟩ | ⟨-, -, rfl⟩
    | ⟨hp, -, t, l, -, ⟨-, rfl⟩ | ⟨v, c, info, -, -, rfl⟩ | ⟨v, body, -, -, rfl⟩⟩
  · exact he
  · exact endingInv_raise _ _
  · exact endingInv_finish_notLldp hc hp rfl
  · exact endingInv_finish_notLldp hc hp rfl
  · exact endingInv_of_outcome_none (outcome hp rfl)
  · exact endingInv_finish_ok hc hp hend
  · exact endingInv_raise _ _
  · exact endingInv_raise _ _
  · exact endingInv_raise _ _
  · exact endingInv_of_outcome_none (outcome hp rfl)

end

/-- Settles O46: the cursor invariants give what an ending of the block leaves, and the status invariant that a run in
progress has no outcome yet. -/
theorem everyStepKeepsTheEndingInvariant : Obligations.EveryStepKeepsTheEndingInvariant := by
  intro s s' hc hs he h
  have hturn : EndingInv s.afterTurn := he
  exact holdsAtRunStart_endingInv.of_step he h (EndingInv.of_blockTurn (s := s.afterTurn) hc hs he)

/-! The records (30_encoding.md section 4). -/

theorem contiguousFrom_append (a : Nat) (rs : List Record) (r : Record) :
    contiguousFrom a (rs ++ [r]) ↔ contiguousFrom a rs ∧ r.tlvOffset = a + payloadUsed rs := by
  induction rs generalizing a with
  | nil => simp [contiguousFrom, payloadUsed]
  | cons q rs ih =>
    have hsum : a + payloadUsed (q :: rs) = a + 2 + q.length.toNat + payloadUsed rs := by
      simp only [payloadUsed, List.map_cons, List.sum_cons]
      omega
    rw [List.cons_append, contiguousFrom, contiguousFrom, ih, hsum, and_assoc]

theorem recordsInv_of_out_nil {s : State} (h : s.out = []) : RecordsInv s := by
  simp [RecordsInv, h, contiguousFrom]

theorem RecordsInv.of_out_eq {s s' : State} (hr : RecordsInv s) (h : s'.out = s.out) : RecordsInv s' := by
  rwa [RecordsInv, h]

theorem holdsAtRunStart_recordsInv : HoldsAtRunStart RecordsInv where
  hostReset _ := recordsInv_of_out_nil rfl
  startRun _ _ := recordsInv_of_out_nil rfl
  congr := of_sameRegisters fun _ _ _ hs => hs

theorem RecordsInv.withRecord {s : State} (hr : RecordsInv s) {t : TypeCode} {l : TlvLen} {body : RecordBody}
    (hsum : 14 + payloadUsed s.out = s.cursor) (hok : Record.ok ⟨t, l, s.cursor, body⟩) :
    RecordsInv (s.withRecord t l body) := by
  obtain ⟨hall, hcont⟩ := hr
  refine ⟨fun r hmem => ?_, (contiguousFrom_append 14 s.out _).2 ⟨hcont, hsum.symm⟩⟩
  rw [State.withRecord_out, List.mem_append, List.mem_singleton] at hmem
  rcases hmem with hmem | rfl
  · exact hall r hmem
  · exact hok

theorem RecordsInv.of_blockTurn {s s' : State} (hc : CursorInv s) (hr : RecordsInv s) (h : blockTurn s = .next s') :
    RecordsInv s' := by
  rcases blockTurn_next h with ⟨-, rfl⟩ | ⟨-, -, rfl⟩ | ⟨-, -, rfl | rfl | rfl⟩ | ⟨-, -, rfl⟩ | ⟨-, -, rfl⟩
    | ⟨hp, -, t, l, -, ⟨-, rfl⟩ | ⟨v, c, info, -, -, rfl⟩ | ⟨v, body, hready, hd, rfl⟩⟩
  · exact hr
  · exact hr.of_out_eq (s.raise_out _ _)
  · exact hr.of_out_eq (s.finish_out _)
  · exact hr.of_out_eq (s.finish_out _)
  · exact hr.of_out_eq s.enterWalk_out
  · exact hr.of_out_eq (s.finish_out _)
  · exact hr.of_out_eq (s.raise_out _ _)
  · exact hr.of_out_eq (s.raise_out _ _)
  · exact hr.of_out_eq (s.raise_out _ _)
  · obtain ⟨-, hsum⟩ := hc.of_walk hp
    exact hr.withRecord hsum (registry_record_ok (length_of_tlvReady hready) hd)

/-- Settles O47: a record the block emits is well formed by `registry_record_ok`, and the cursor invariants place it
after the records before it. -/
theorem everyStepKeepsTheRecordsWellFormed : Obligations.EveryStepKeepsTheRecordsWellFormed := by
  intro s s' hc hr h
  exact holdsAtRunStart_recordsInv.of_step hr h (RecordsInv.of_blockTurn (s := s.afterTurn) hc hr)

end Sys2Proof.Machine
end

section
/-! PROOFS. The statements on the host's operations and on FRAME (20_memory.md, 70_reset_and_hazards.md sections 2
and 3, 10_state.md R25, R31), the codes of the endings (60_exceptions.md R114), and the bounds and loaded runs that
follow from the invariants (10_state.md R21, 20_memory.md R40). -/

namespace Sys2Proof.Machine

/-! A host write to FRAME, one lemma per branch of `hostWriteFrame`. -/

section
variable {p : Params} {addr : Nat} {bytes : List Byte} {s : State}

theorem hostWriteFrame_of_running (hr : s.phase.running = true) :
    hostWriteFrame p addr bytes s = .refused .frameWriteDuringRun := by
  simp [hostWriteFrame, hr]

theorem hostWriteFrame_of_past_end (hr : s.phase.running = false) (hlen : 2 ^ p.cursorW < addr + bytes.length) :
    hostWriteFrame p addr bytes s = .fault .addressOutsideFrame := by
  simp [hostWriteFrame, hr, hlen]

theorem hostWriteFrame_of_inside (hr : s.phase.running = false) (hlen : addr + bytes.length ≤ 2 ^ p.cursorW) :
    hostWriteFrame p addr bytes s = .next { s with frame := s.frame.writeBytes addr bytes } := by
  simp [hostWriteFrame, hr, Nat.not_lt.2 hlen]

end

theorem Memory.read_writeBytes_inside (m : Memory) (a : Nat) {bs : List Byte} {i : Nat} (hi : i < bs.length) :
    Memory.read (m.writeBytes a bs) (a + i) = some bs[i] := by
  have hin : a ≤ a + i ∧ a + i < a + bs.length := by omega
  simp only [Memory.read_writeBytes, dif_pos hin, Nat.add_sub_cancel_left]

theorem Memory.read_writeBytes_outside (m : Memory) {a x : Nat} {bs : List Byte} (hx : x < a ∨ a + bs.length ≤ x) :
    Memory.read (m.writeBytes a bs) x = Memory.read m x := by
  rw [Memory.read_writeBytes, dif_neg (by omega)]

/-- Settles O4: the three clauses are the three branches of `hostWriteFrame`. -/
theorem hostFrameWriteLandsOnlyOutsideARun : Obligations.HostFrameWriteLandsOnlyOutsideARun := by
  intro p addr bytes s
  refine ⟨fun hp hlen => ?_, fun hp hlen => ?_, fun hp => ?_⟩
  · exact ⟨_, hostWriteFrame_of_inside (Phase.running_eq_false_iff.2 hp) hlen, rfl,
      fun i hi => Memory.read_writeBytes_inside s.frame addr hi, fun a ha => Memory.read_writeBytes_outside s.frame ha⟩
  · exact hostWriteFrame_of_past_end (Phase.running_eq_false_iff.2 hp) hlen
  · exact hostWriteFrame_of_running (Phase.running_eq_true_iff.2 hp)

/-! Taking the frame and reading a register. -/

/-- Settles O5: `State.lldpFrame` asks for exactly this ending, and `hostTakeFrame` answers by it. -/
theorem onlyAnOkRunGivesAnLldpFrame : Obligations.OnlyAnOkRunGivesAnLldpFrame := by
  intro p s
  refine ⟨fun hok => ?_, fun hno => ?_⟩
  · have hframe : s.lldpFrame = some s.out := if_pos hok
    exact ⟨hframe, by simp only [hostOp, hostTakeFrame, hframe]⟩
  · have hframe : s.lldpFrame = none := if_neg hno
    exact ⟨hframe, by simp only [hostOp, hostTakeFrame, hframe]⟩

/-- Settles O6: a read answers the state it was given, and `State.readReg` is the register. -/
theorem hostReadsHaveNoSideEffect : Obligations.HostReadsHaveNoSideEffect :=
  fun _ _ _ => ⟨rfl, rfl, rfl, rfl, rfl⟩

/-- Settles O7: the codes outcome by outcome, and every ending by the fields it writes. -/
theorem endingCodesFollowTheTable : Obligations.EndingCodesFollowTheTable := by
  refine ⟨⟨rfl, rfl, rfl, rfl, rfl, rfl, rfl⟩, fun o => ?_, fun s => ⟨rfl, rfl, rfl⟩,
    fun s info => ⟨rfl, rfl, rfl, rfl, rfl, rfl, rfl, rfl, rfl, rfl, rfl, rfl⟩⟩
  cases o <;> decide

/-! FRAME through a step. -/

/-- What a step does to FRAME: the block leaves it alone, and the host leaves it alone or writes bytes outside a run
(20_memory.md R35, R36). -/
theorem step_frame {s s' : State} (h : step s = .next s') : s'.frame = s.frame
    ∨ ∃ a bs, s.phase.running = false ∧ s'.frame = s.frame.writeBytes a bs := by
  rcases step_cases s with ⟨-, hstep⟩ | ⟨op, rest, -, hstep⟩
  · obtain ⟨hframe, -, -⟩ := blockTurn_keepsMemory (hstep ▸ h)
    exact .inl hframe
  · rw [hstep] at h
    rcases hostOp_next h with ⟨-, rfl⟩ | ⟨n, -, -, -, -, rfl⟩ | ⟨a, bs, -, hr, rfl⟩ | ⟨-, rfl⟩
    · exact .inl rfl
    · exact .inl rfl
    · exact .inr ⟨a, bs, hr, rfl⟩
    · exact .inl rfl

/-- Settles O48: `Memory.wf_writeBytes` for the one step that writes. -/
theorem everyStepKeepsFrameCanonical : Obligations.EveryStepKeepsFrameCanonical := by
  intro s s' hwf h
  rcases step_frame h with hframe | ⟨a, bs, -, hframe⟩
  · rwa [hframe]
  · rw [hframe]
    exact Memory.wf_writeBytes a bs hwf

/-- The block's turn begins no run. -/
theorem running_of_blockTurn {s s' : State} (h : blockTurn s = .next s') (hr : s'.phase.running = true) :
    s.phase.running = true := by
  by_contra hno
  rw [blockTurn_of_not_running (Phase.running_eq_false_iff.1 (Bool.eq_false_of_not_eq_true hno))] at h
  cases h
  exact hno hr

theorem runLoaded_of_not_running {s : State} (hr : s.phase.running = false) : RunLoaded s := by
  intro hp
  rw [Phase.running_eq_true_iff.2 hp] at hr
  cases hr

theorem RunLoaded.of_blockTurn {s s' : State} (hs : RunLoaded s) (h : blockTurn s = .next s') : RunLoaded s' := by
  intro hp
  obtain ⟨hframe, hlen, -⟩ := blockTurn_keepsMemory h
  have hr : s.phase.running = true := running_of_blockTurn h (Phase.running_eq_true_iff.2 hp)
  rw [Loaded, hframe, hlen]
  exact hs (Phase.running_eq_true_iff.1 hr)

/-- Settles O54: the block changes neither FRAME nor its length and begins no run; of the host's operations only START
begins one, over a frame written whole, and a write lands outside a run. -/
theorem everyStepKeepsTheRunLoaded : Obligations.EveryStepKeepsTheRunLoaded := by
  intro s s' hs h
  rcases step_cases s with ⟨-, hstep⟩ | ⟨op, rest, -, hstep⟩
  · have hturn : RunLoaded s.afterTurn := hs
    exact hturn.of_blockTurn (hstep ▸ h)
  · rw [hstep] at h
    rcases hostOp_next h with ⟨-, rfl⟩ | ⟨n, -, -, -, hw, rfl⟩ | ⟨a, bs, -, hr, rfl⟩ | ⟨-, rfl⟩
    · exact runLoaded_of_not_running rfl
    · exact fun _ => Memory.written_iff.1 hw
    · exact runLoaded_of_not_running hr
    · exact hs

/-- Settles O51: outside a run the block stutters, and in a run every read of it is of a loaded frame. -/
theorem blockNeverStopsOnALoadedFrame : Obligations.BlockNeverStopsOnALoadedFrame := by
  intro s hc hload hb
  rw [step_of_blockMoves hb]
  obtain ⟨hle, -⟩ := hc
  cases hp : s.phase with
  | idle => exact ⟨_, blockTurn_of_not_running (s := s.afterTurn) (.inl hp)⟩
  | done => exact ⟨_, blockTurn_of_not_running (s := s.afterTurn) (.inr hp)⟩
  | validate =>
    rw [blockTurn_of_validate (s := s.afterTurn) hp]
    exact execEnvelope_answers (s := s.afterTurn) (hload (.inl hp)) hp
  | walk => exact walkTurn_answers (s := s.afterTurn) (hload (.inr hp)) hp hle

/-! `frame_len` at any parameters. -/

theorem State.afterTurn_of_turns_nil {s : State} (h : s.turns = []) : s.afterTurn = s := by
  rw [State.afterTurn, h, List.tail_nil, ← h]

/-- A step at any parameters is the block's move or a host operation. -/
theorem stepWith_cases (p : Params) (s : State) :
    stepWith p s = blockStepWith p s.afterTurn ∨ ∃ op, stepWith p s = hostOp p op s.afterTurn := by
  rcases ht : s.turns with _ | ⟨_ | op, rest⟩
  · exact .inl (by rw [State.afterTurn_of_turns_nil ht]; simp only [stepWith, ht])
  · exact .inl (by simp only [stepWith, State.afterTurn, ht, List.tail_cons])
  · exact .inr ⟨op, by simp only [stepWith, State.afterTurn, ht, List.tail_cons]⟩

theorem commitRecord_frameLen (p : Params) (t : TypeCode) (l : TlvLen) (body : RecordBody) (s : State) :
    (commitRecord p t l body s).frameLen = s.frameLen := by
  unfold commitRecord
  split
  · rfl
  · rfl

theorem runTlv_keeps_frameLen {p : Params} {decoder : Decoder} {t : TypeCode} {l : TlvLen} {s s' : State}
    (h : runTlv p decoder t l s = .next s') : s'.frameLen = s.frameLen := by
  rcases runTlv_next h with
    ⟨-, -, ⟨-, rfl⟩ | ⟨-, rfl⟩ | ⟨-, -, rfl⟩ | ⟨v, c, info, -, -, rfl⟩ | ⟨v, body, -, -, rfl⟩⟩
  · rfl
  · rfl
  · rfl
  · rfl
  · exact commitRecord_frameLen p t l body s

theorem walkWith_keeps_frameLen {p : Params} {s s' : State} (hp : s.phase = .walk) (h : walkWith p s = .next s') :
    s'.frameLen = s.frameLen := by
  obtain hc | hc | hc | hh : s.frameLen < s.cursor ∨ s.cursor = s.frameLen ∨ s.cursor + 1 = s.frameLen
      ∨ s.cursor + 2 ≤ s.frameLen := by omega
  · rw [walkWith_of_cursor_past_end hc] at h
    cases h
  · rw [walkWith_of_payload_end hc] at h
    cases h
    rfl
  · rw [walkWith_of_one_byte_left hc] at h
    cases h
    rfl
  · cases hm : s.memRead s.cursor 2 with
    | error e =>
      rw [walkWith_of_unread_header hh hm] at h
      obtain ⟨c, info, -, rfl⟩ := halt_eq_next.1 h
      rfl
    | ok w =>
      rw [walkWith_of_header hh hm, ← runTlv_of_header hp hh] at h
      exact runTlv_keeps_frameLen h

theorem blockStepWith_keeps_frameLen {p : Params} {s s' : State} (h : blockStepWith p s = .next s') :
    s'.frameLen = s.frameLen := by
  cases hp : s.phase with
  | idle | done =>
    simp only [blockStepWith, hp] at h
    cases h
    rfl
  | validate =>
    simp only [blockStepWith, hp] at h
    exact (execEnvelope_keepsMemory h).frameLen
  | walk =>
    simp only [blockStepWith, hp] at h
    exact walkWith_keeps_frameLen hp h

/-- Settles O49: only START writes a `frame_len` other than 0, and it is refused above the bound. -/
theorem everyStepKeepsFrameLenInBounds : Obligations.EveryStepKeepsFrameLenInBounds := by
  intro p s s' hs h
  have hturn : s.afterTurn.frameLen ≤ p.maxFrameLen := hs
  rcases stepWith_cases p s with hstep | ⟨op, hstep⟩
  · rw [hstep] at h
    rwa [blockStepWith_keeps_frameLen h]
  · rw [hstep] at h
    rcases hostOp_next h with ⟨-, rfl⟩ | ⟨n, -, hn, -, -, rfl⟩ | ⟨a, bs, -, -, rfl⟩ | ⟨-, rfl⟩
    · exact Nat.zero_le _
    · exact hn
    · exact hturn
    · exact hturn

/-! The registers of width `CURSOR_W` (10_state.md R21). -/

/-- `CURSOR_W` is the least width that holds `MAX_FRAME_LEN` (00_scope.md R5). -/
theorem cursorW_le_iff (p : Params) (w : Nat) : p.cursorW ≤ w ↔ p.maxFrameLen < 2 ^ w := by
  unfold Params.cursorW
  split
  · next h => simp [h]
  · next h => rw [Nat.succ_le_iff, Nat.log2_lt h]

/-- The offsets and the count of an error are of bytes in the frame (60_exceptions.md R122). -/
theorem State.errInfoRow.le_frameLen {s : State} (h : s.errInfoRow) (hc : s.cursor ≤ s.frameLen) :
    s.errTlvOffset ≤ s.frameLen ∧ s.errAvail ≤ s.frameLen ∧ s.errPos ≤ s.frameLen := by
  unfold State.errInfoRow State.errInfoZero at h
  split at h
  case h_12 => exact h.elim
  all_goals omega

theorem two_mul_length_le_payloadUsed (out : List Record) : 2 * out.length ≤ payloadUsed out := by
  induction out with
  | nil => exact Nat.le_refl 0
  | cons r rs ih =>
    simp only [payloadUsed, List.map_cons, List.sum_cons, List.length_cons] at ih ⊢
    omega

/-- Every record takes two bytes of the payload at least (10_state.md R23). -/
theorem CursorInv.recCount_le {s : State} (hs : CursorInv s) : s.recCount ≤ (s.frameLen - 14) / 2 := by
  obtain ⟨hle, -, hsum, hcount, -⟩ := hs
  have htwo := two_mul_length_le_payloadUsed s.out
  rw [hcount]
  by_cases hout : s.out = []
  · simp [hout]
  · have := hsum (.inl hout)
    omega

/-- Settles O50: each of the registers is at most `frame_len`, by the invariants. -/
theorem cursorWidthRegistersNeverOverflow : Obligations.CursorWidthRegistersNeverOverflow := by
  intro p s hlen hc hs
  have hcount := hc.recCount_le
  obtain ⟨hle, -⟩ := hc
  obtain ⟨-, hrow, -⟩ := hs
  obtain ⟨hoff, havail, hpos⟩ := hrow.le_frameLen hle
  have hw : p.maxFrameLen < 2 ^ p.cursorW := (cursorW_le_iff p p.cursorW).1 (Nat.le_refl _)
  refine ⟨⟨hw, fun w => (cursorW_le_iff p w).2⟩, ?_, ?_, ?_, ?_, ?_, ?_, hcount⟩ <;> omega

/-! The reset state. -/

/-- Settles O43: the registers at reset meet the invariants that RESET establishes, and no byte of FRAME is listed. -/
theorem resetMeetsTheInvariants : Obligations.ResetMeetsTheInvariants :=
  ⟨holdsAtRunStart_cursorInv.hostReset .reset, holdsAtRunStart_statusInv.hostReset .reset,
    holdsAtRunStart_endingInv.hostReset .reset, holdsAtRunStart_recordsInv.hostReset .reset,
    runLoaded_of_not_running rfl, rfl⟩

end Sys2Proof.Machine
end

section
/-! PROOFS. The statements of 42_field_primitives.md on text: well-formed UTF-8 splits into the rows of the table
(section 3), bytes and code points correspond, and the hexadecimal texts lose nothing (section 5). -/

namespace Sys2Proof.Machine

/-! One sequence and its code point. -/

/-- The bytes `q` are one sequence of the UTF-8 table and stand for the code point `n` (42_field_primitives.md R83; the
arithmetic is the model's presumption, log entry 8). -/
inductive Utf8Sequence : List Byte → Nat → Prop
  | one {a : Byte} {n : Nat} (ha : Byte.within a 0x00 0x7F = true) (hn : n = a.toNat) : Utf8Sequence [a] n
  | two {a b : Byte} {n : Nat} (ha : Byte.within a 0xC2 0xDF = true) (hb : Byte.within b 0x80 0xBF = true)
      (hn : n = (a.toNat - 0xC0) * 64 + (b.toNat - 0x80)) : Utf8Sequence [a, b] n
  | three {a b c : Byte} {n : Nat} (hab : utf8Lead3 a b = true) (hc : Byte.within c 0x80 0xBF = true)
      (hn : n = (a.toNat - 0xE0) * 4096 + (b.toNat - 0x80) * 64 + (c.toNat - 0x80)) : Utf8Sequence [a, b, c] n
  | four {a b c d : Byte} {n : Nat} (hab : utf8Lead4 a b = true) (hc : Byte.within c 0x80 0xBF = true)
      (hd : Byte.within d 0x80 0xBF = true)
      (hn : n = (a.toNat - 0xF0) * 262144 + (b.toNat - 0x80) * 4096 + (c.toNat - 0x80) * 64 + (d.toNat - 0x80)) :
      Utf8Sequence [a, b, c, d] n

theorem wellFormedSequence_iff_exists {q : List Byte} : wellFormedSequence q = true ↔ ∃ n, Utf8Sequence q n := by
  rw [wellFormedSequence_iff]
  constructor
  · rintro (⟨a, rfl, ha⟩ | ⟨a, b, rfl, ha, hb⟩ | ⟨a, b, c, rfl, hab, hc⟩ | ⟨a, b, c, d, rfl, hab, hc, hd⟩)
    · exact ⟨_, .one ha rfl⟩
    · exact ⟨_, .two ha hb rfl⟩
    · exact ⟨_, .three hab hc rfl⟩
    · exact ⟨_, .four hab hc hd rfl⟩
  · rintro ⟨n, h⟩
    cases h with
    | one ha => exact .inl ⟨_, rfl, ha⟩
    | two ha hb => exact .inr (.inl ⟨_, _, rfl, ha, hb⟩)
    | three hab hc => exact .inr (.inr (.inl ⟨_, _, _, rfl, hab, hc⟩))
    | four hab hc hd => exact .inr (.inr (.inr ⟨_, _, _, _, rfl, hab, hc, hd⟩))

/-- Decoding takes a sequence off the front. -/
theorem Utf8Sequence.utf8Decode_append {q : List Byte} {n : Nat} (h : Utf8Sequence q n) (r : List Byte) :
    utf8Decode (q ++ r) = (utf8Decode r).map (n :: ·) := by
  cases h with
  | one ha hn => rw [hn]; exact utf8Decode_one ha
  | two ha hb hn => rw [hn]; exact utf8Decode_two ha hb
  | three hab hc hn => rw [hn]; exact utf8Decode_three hab hc
  | four hab hc hd hn => rw [hn]; exact utf8Decode_four hab hc hd

/-- Everything decoding can do when it answers, by the branches of `utf8Decode`: it took a sequence off the front, or
there was nothing. -/
theorem utf8Decode_eq_some {s : List Byte} {points : List Nat} (h : utf8Decode s = some points) :
    (s = [] ∧ points = [])
    ∨ ∃ q n r rest, Utf8Sequence q n ∧ s = q ++ r ∧ points = n :: rest ∧ utf8Decode r = some rest := by
  revert h
  fun_cases utf8Decode s
  all_goals intro h
  case case1 =>
    cases h
    exact .inl ⟨rfl, rfl⟩
  case case3 | case5 | case7 | case9 => cases h
  all_goals
    obtain ⟨rest, hr, rfl⟩ := Option.map_eq_some_iff.1 h
    refine .inr ?_
  case case2 a s ha => exact ⟨[a], _, s, rest, .one ha rfl, rfl, rfl, hr⟩
  case case4 a _ b s hab =>
    obtain ⟨ha, hb⟩ := Bool.and_eq_true_iff.1 hab
    exact ⟨[a, b], _, s, rest, .two ha hb rfl, rfl, rfl, hr⟩
  case case6 a _ b _ c s habc =>
    obtain ⟨hab, hc⟩ := Bool.and_eq_true_iff.1 habc
    exact ⟨[a, b, c], _, s, rest, .three hab hc rfl, rfl, rfl, hr⟩
  case case8 a _ b _ c _ d s habcd =>
    obtain ⟨habc, hd⟩ := Bool.and_eq_true_iff.1 habcd
    obtain ⟨hab, hc⟩ := Bool.and_eq_true_iff.1 habc
    exact ⟨[a, b, c, d], _, s, rest, .four hab hc hd rfl, rfl, rfl, hr⟩

/-! The split into sequences (42_field_primitives.md R83). -/

theorem exists_sequences_of_utf8Decode {s : List Byte} {points : List Nat} (h : utf8Decode s = some points) :
    ∃ qs : List (List Byte), (∀ q ∈ qs, wellFormedSequence q = true) ∧ qs.flatten = s := by
  induction points generalizing s with
  | nil =>
    obtain ⟨rfl, -⟩ | ⟨q, n, r, rest, -, -, ⟨⟩, -⟩ := utf8Decode_eq_some h
    exact ⟨[], by simp, rfl⟩
  | cons n points ih =>
    obtain ⟨-, ⟨⟩⟩ | ⟨q, n, r, rest, hq, rfl, ⟨⟩, hr⟩ := utf8Decode_eq_some h
    obtain ⟨qs, hall, rfl⟩ := ih hr
    exact ⟨q :: qs, List.forall_mem_cons.2 ⟨wellFormedSequence_iff_exists.2 ⟨n, hq⟩, hall⟩, rfl⟩

theorem utf8Valid_append {q : List Byte} (hq : wellFormedSequence q = true) (r : List Byte) :
    utf8Valid (q ++ r) = utf8Valid r := by
  obtain ⟨n, hn⟩ := wellFormedSequence_iff_exists.1 hq
  rw [utf8Valid, hn.utf8Decode_append, Option.isSome_map, utf8Valid]

theorem utf8Valid_flatten {qs : List (List Byte)} (h : ∀ q ∈ qs, wellFormedSequence q = true) :
    utf8Valid qs.flatten = true := by
  induction qs with
  | nil => rfl
  | cons q qs ih =>
    obtain ⟨hq, hqs⟩ := List.forall_mem_cons.1 h
    rw [List.flatten_cons, utf8Valid_append hq, ih hqs]

/-- Settles O36: from the code points to the sequences, and from the sequences to a valid list. -/
theorem utf8ValidMeansSplitsIntoRows : Obligations.Utf8ValidMeansSplitsIntoRows := by
  refine fun s => ⟨fun h => ?_, ?_⟩
  · obtain ⟨points, hp⟩ := Option.isSome_iff_exists.1 h
    exact exists_sequences_of_utf8Decode hp
  · rintro ⟨qs, hall, rfl⟩
    exact utf8Valid_flatten hall

/-! The arithmetic of a sequence (presumed, log entry 8). -/

/-- A Unicode scalar value: a code point that is no surrogate. -/
abbrev IsScalarValue (n : Nat) : Prop := n < 0x110000 ∧ ¬ (0xD800 ≤ n ∧ n ≤ 0xDFFF)

theorem utf8Sequence_utf8EncodePoint {n : Nat} (h : IsScalarValue n) : Utf8Sequence (utf8EncodePoint n) n := by
  unfold utf8EncodePoint
  split
  · refine .one ?_ ?_ <;> simp only [Byte.within_iff, BitVec.toNat_ofNat] <;> omega
  · split
    · refine .two ?_ ?_ ?_ <;> simp only [Byte.within_iff, BitVec.toNat_ofNat] <;> omega
    · split
      · refine .three ?_ ?_ ?_ <;> simp only [utf8Lead3_iff, Byte.within_iff, BitVec.toNat_ofNat] <;> omega
      · refine .four ?_ ?_ ?_ ?_ <;> simp only [utf8Lead4_iff, Byte.within_iff, BitVec.toNat_ofNat] <;> omega

theorem byte_ofNat_eq {m : Nat} {b : Byte} (h : m = b.toNat) : BitVec.ofNat 8 m = b := by
  rw [h, BitVec.ofNat_toNat, BitVec.setWidth_eq]

theorem Utf8Sequence.isScalarValue {q : List Byte} {n : Nat} (h : Utf8Sequence q n) : IsScalarValue n := by
  cases h with
  | one ha hn => rw [Byte.within_iff] at ha; omega
  | two ha hb hn => rw [Byte.within_iff] at ha hb; omega
  | three hab hc hn => rw [utf8Lead3_iff] at hab; rw [Byte.within_iff] at hc; omega
  | four hab hc hd hn => rw [utf8Lead4_iff] at hab; rw [Byte.within_iff] at hc hd; omega

theorem Utf8Sequence.utf8EncodePoint_eq {q : List Byte} {n : Nat} (h : Utf8Sequence q n) : utf8EncodePoint n = q := by
  cases h with
  | @one a _ ha hn =>
    rw [Byte.within_iff] at ha
    rw [utf8EncodePoint, if_pos (by omega), byte_ofNat_eq hn]
  | @two a b _ ha hb hn =>
    rw [Byte.within_iff] at ha hb
    have ea : 0xC0 + n / 64 = a.toNat := by omega
    have eb : 0x80 + n % 64 = b.toNat := by omega
    rw [utf8EncodePoint, if_neg (by omega), if_pos (by omega), byte_ofNat_eq ea, byte_ofNat_eq eb]
  | @three a b c _ hab hc hn =>
    rw [utf8Lead3_iff] at hab
    rw [Byte.within_iff] at hc
    have ea : 0xE0 + n / 4096 = a.toNat := by omega
    have eb : 0x80 + n / 64 % 64 = b.toNat := by omega
    have ec : 0x80 + n % 64 = c.toNat := by omega
    rw [utf8EncodePoint, if_neg (by omega), if_neg (by omega), if_pos (by omega), byte_ofNat_eq ea, byte_ofNat_eq eb,
      byte_ofNat_eq ec]
  | @four a b c d _ hab hc hd hn =>
    rw [utf8Lead4_iff] at hab
    rw [Byte.within_iff] at hc hd
    have ea : 0xF0 + n / 262144 = a.toNat := by omega
    have eb : 0x80 + n / 4096 % 64 = b.toNat := by omega
    have ec : 0x80 + n / 64 % 64 = c.toNat := by omega
    have ed : 0x80 + n % 64 = d.toNat := by omega
    rw [utf8EncodePoint, if_neg (by omega), if_neg (by omega), if_neg (by omega), byte_ofNat_eq ea, byte_ofNat_eq eb,
      byte_ofNat_eq ec, byte_ofNat_eq ed]

theorem utf8Decode_flatMap_utf8EncodePoint {points : List Nat} (h : ∀ n ∈ points, IsScalarValue n) :
    utf8Decode (points.flatMap utf8EncodePoint) = some points := by
  induction points with
  | nil => rfl
  | cons n points ih =>
    obtain ⟨hn, hpoints⟩ := List.forall_mem_cons.1 h
    rw [List.flatMap_cons, (utf8Sequence_utf8EncodePoint hn).utf8Decode_append, ih hpoints, Option.map_some]

theorem flatMap_utf8EncodePoint_of_utf8Decode {s : List Byte} {points : List Nat} (h : utf8Decode s = some points) :
    points.flatMap utf8EncodePoint = s ∧ ∀ n ∈ points, IsScalarValue n := by
  induction points generalizing s with
  | nil =>
    obtain ⟨rfl, -⟩ | ⟨q, n, r, rest, -, -, ⟨⟩, -⟩ := utf8Decode_eq_some h
    exact ⟨rfl, by simp⟩
  | cons n points ih =>
    obtain ⟨-, ⟨⟩⟩ | ⟨q, n, r, rest, hq, rfl, ⟨⟩, hr⟩ := utf8Decode_eq_some h
    obtain ⟨hbytes, hscalar⟩ := ih hr
    exact ⟨by rw [List.flatMap_cons, hq.utf8EncodePoint_eq, hbytes], List.forall_mem_cons.2 ⟨hq.isScalarValue, hscalar⟩⟩

/-- Settles O37: each by induction on the code points, one sequence at a time. -/
theorem utf8BytesAndCodePointsCorrespond : Obligations.Utf8BytesAndCodePointsCorrespond :=
  ⟨fun _ h => utf8Decode_flatMap_utf8EncodePoint h, fun _ _ h => flatMap_utf8EncodePoint_of_utf8Decode h⟩

/-! The hexadecimal texts (42_field_primitives.md R86, R87). -/

theorem hexDigit_injective {n m : Nat} (hn : n < 16) (hm : m < 16) (h : hexDigit n = hexDigit m) : n = m := by
  have hall : ∀ n m : Fin 16, hexDigit n = hexDigit m → n = m := by decide
  exact congrArg Fin.val (hall ⟨n, hn⟩ ⟨m, hm⟩ h)

theorem hexDigit_ne_colon {n : Nat} (hn : n < 16) : hexDigit n ≠ ':' := by
  have hall : ∀ n : Fin 16, hexDigit n ≠ ':' := by decide
  exact hall ⟨n, hn⟩

theorem hexByte_injective {a b : Byte} (h : hexByte a = hexByte b) : a = b := by
  have ha := a.isLt
  have hb := b.isLt
  simp only [hexByte, List.cons.injEq, and_true] at h
  obtain ⟨hhi, hlo⟩ := h
  have hhi := hexDigit_injective (by omega) (by omega) hhi
  have hlo := hexDigit_injective (by omega) (by omega) hlo
  exact BitVec.eq_of_toNat_eq (by omega)

theorem renderHexPlain_injective {s t : List Byte} (h : renderHexPlain s = renderHexPlain t) : s = t := by
  induction s generalizing t with
  | nil =>
    cases t with
    | nil => rfl
    | cons b t => cases h
  | cons a s ih =>
    cases t with
    | nil => cases h
    | cons b t =>
      obtain ⟨hab, hst⟩ : hexByte a = hexByte b ∧ renderHexPlain s = renderHexPlain t := List.append_inj h rfl
      rw [hexByte_injective hab, ih hst]

/-- Texts without the separator are what is left of the joined text when it is taken out. -/
theorem filter_ne_joinWith {sep : Char} {ts : List (List Char)} (h : ∀ t ∈ ts, ∀ ch ∈ t, ch ≠ sep) :
    (joinWith sep ts).filter (· ≠ sep) = ts.flatten := by
  induction ts with
  | nil => rfl
  | cons t ts ih =>
    obtain ⟨ht, hts⟩ := List.forall_mem_cons.1 h
    have hkeep : t.filter (· ≠ sep) = t := List.filter_eq_self.2 (by simpa using ht)
    cases ts with
    | nil => rw [joinWith, hkeep, List.flatten_singleton]
    | cons u ts =>
      rw [joinWith, List.filter_append, List.filter_cons_of_neg (by simp), ih hts, hkeep,
        List.flatten_cons (L := u :: ts)]

theorem ne_colon_of_mem_hexByte {b : Byte} {ch : Char} (h : ch ∈ hexByte b) : ch ≠ ':' := by
  have hb := b.isLt
  simp only [hexByte, List.mem_cons, List.not_mem_nil, or_false] at h
  rcases h with rfl | rfl
  · exact hexDigit_ne_colon (by omega)
  · exact hexDigit_ne_colon (by omega)

/-- The text with colons is the plain one with colons put in. -/
theorem filter_ne_colon_renderHexColon (s : List Byte) : (renderHexColon s).filter (· ≠ ':') = renderHexPlain s := by
  refine filter_ne_joinWith fun t ht ch hch => ?_
  obtain ⟨b, -, rfl⟩ := List.mem_map.1 ht
  exact ne_colon_of_mem_hexByte hch

/-- Settles O38: two digits determine a byte, and without its colons the HEX_COLON text is the HEX_PLAIN one. -/
theorem hexRenderingsDetermineTheBytes : Obligations.HexRenderingsDetermineTheBytes := by
  refine ⟨fun s t h => renderHexPlain_injective h, fun s t h => renderHexPlain_injective ?_⟩
  rw [← filter_ne_colon_renderHexColon, ← filter_ne_colon_renderHexColon, h]

end Sys2Proof.Machine
end
